-- ==== Sys2Proof/Word.lean ====
section
/-!
DEFINITION. The two sizes of data the machine has: the byte of the program space and the 32-bit word of the
operand stack (spec/00_scope.md R1, section 6.1).
-/

namespace Sys2Proof

/-- A byte of the program space; bit 7 is the most significant (00_scope.md section 6.1). -/
abbrev Byte := BitVec 8

/-- An `int32`: one element of the operand stack, one immediate, one result (R1). The 32-bit pattern and its signed
value `Word.toInt` are used interchangeably, as 00_scope.md section 6.1 does; the spec's `zext_32` is the pattern's
`toNat`. -/
abbrev Word := BitVec 32

/-- `INT32_MIN` of R1, as a word. -/
def Word.int32Min : Word := 0x80000000#32

/-- `INT32_MAX` of R1, as a word. -/
def Word.int32Max : Word := 0x7FFFFFFF#32

end Sys2Proof
end

