-- ==== Sys2Proof/Config.lean ====
section
/-!
DEFINITION. What is fixed for the machine: the bound on a program's length and the default stack capacity. There is
no other option, variant or configuration register (spec/00_scope.md R5), and no value is left free: every value an
instruction writes is stated by a rule.
-/

namespace Sys2Proof.Config

/-- The largest program length, `2^31 - 1` (R2, decision D2). -/
def maxProgLen : Nat := 0x7FFFFFFF

/-- `STACK_CAP` where the hardware instance sets none: unbounded, written `none` (R3). -/
def defaultStackCap : Option Nat := none

end Sys2Proof.Config
end

