-- ==== Sys2Proof/Syntax.lean ====
section
/-!
DEFINITION. The 17 instructions, in the order of the opcode map (spec/30_encoding.md R55). Four carry a 32-bit
immediate (format OPI, R52); the other thirteen are the opcode byte alone (format OP, R51).
-/

namespace Sys2Proof

inductive Instr where
  /-- HALT, R73. -/
  | halt
  /-- JUMP, R74. -/
  | jump
  /-- JUMP_IF_ZERO, R75. -/
  | jumpIfZero
  /-- PUSH_CONST, R80: the value to push. -/
  | pushConst (v : Word)
  /-- LOAD_AT_DEPTH, R81: the signed depth from the top. -/
  | loadAtDepth (d : Word)
  /-- STORE_AT_DEPTH, R82: the signed depth from the top that remains after the pop. -/
  | storeAtDepth (d : Word)
  /-- DROP_N, R83: the signed count. -/
  | dropN (n : Word)
  /-- ADD, R91. -/
  | add
  /-- SUB, R92. -/
  | sub
  /-- MUL, R93. -/
  | mul
  /-- DIV, R94. -/
  | div
  /-- MOD, R95. -/
  | mod
  /-- EQ, R100. -/
  | eq
  /-- GT, R101. -/
  | gt
  /-- LT, R102. -/
  | lt
  /-- GE, R103. -/
  | ge
  /-- LE, R104. -/
  | le
  deriving DecidableEq, Repr

/-- The instruction's length in bytes: 5 for the four OPI instructions, 1 for the others (R50). -/
def Instr.length : Instr → Nat
  | .pushConst _ | .loadAtDepth _ | .storeAtDepth _ | .dropN _ => 5
  | .halt | .jump | .jumpIfZero | .add | .sub | .mul | .div | .mod | .eq | .gt | .lt | .ge | .le => 1

end Sys2Proof
end

