-- ==== Sys2Proof/Machine/State.lean ====
section
/-!
DEFINITION. The machine's state as plain data, the reasons a step can stop, and the state after reset
(spec/10_state.md R10, R18, R23; spec/70_reset_and_hazards.md R140, R141).
-/

namespace Sys2Proof.Machine

/-- The kinds of fault that the latch `err` can hold (R18, R110). `EmptyResult` is no such kind: it is a response of
the result port (R116). -/
inductive FaultKind where
  /-- A pop found the stack empty (R111). -/
  | stackUnderflow
  /-- A depth-relative index lies outside the stack (R112). -/
  | addressOutOfRange
  /-- An immediate would run past the end of the program, or DROP_N has a negative count (R113). -/
  | malformedProgram
  /-- DIV or MOD with the second popped value 0 (R114). -/
  | divideByZero
  /-- The opcode byte is none of the 17 (R115). -/
  | unknownOpcode
  /-- A push found the stack at its capacity; only with a finite `STACK_CAP` (R117). -/
  | stackOverflow
  deriving DecidableEq, Repr

/-- The reasons for which a step of the MODEL stops. The faults of the spec are not here: the spec says what they do
(R120), so they are next states, with `err` written. -/
inductive Fault where
  /-- Raised by `step` when the fetch asks for a program byte at an address at or above `L`, where none exists. R37
  says that the machine never does. Safe: the model stops. -/
  | noProgramByte
  deriving DecidableEq, Repr

/-- The reasons for which the model gives no meaning. -/
inductive Refusal where
  /-- For an arm of `exec` whose instruction has no meaning yet; none is left. Safe: the model stops. -/
  | notModelled (mnemonic : String)
  /-- Raised by `step` and `construct` for a program longer than `2^31 - 1` bytes, which the spec refuses (R2,
  decision D2, entry U14). Safe: the model stops. -/
  | programTooLong
  deriving DecidableEq, Repr

/-- The state: the three items of R10, and the inputs of the step function that R10 lists beside them (log entry 1),
which no instruction writes. -/
structure State where
  /-- The instruction pointer: the address of the opcode byte of the next instruction (R4, R12). -/
  ip : BitVec 32
  /-- The operand stack, bottom first and top last (R15); the spec's `len` is its length. -/
  stack : List Word
  /-- The fault latch; `none` is the spec's `None` (R18). -/
  err : Option FaultKind
  /-- The program bytes as cells in canonical form; an address below `progLen` with no cell holds 0 (R11, R31; log
  entry 2). -/
  prog : List Host.Cell
  /-- The spec's `L`, the program's length in bytes (R2). -/
  progLen : Nat
  /-- The spec's `STACK_CAP`; `none` is `unbounded` (R3). -/
  stackCap : Option Nat
  deriving DecidableEq, Repr

/-- The machine right after reset, with no program loaded: `ip = 0`, empty stack, `err = None` (R23, R140); the
program is empty until a Loader supplies one (log entry 3); the capacity is the default of R3 (log entry 4). -/
def State.reset : State where
  ip := 0#32
  stack := []
  err := none
  prog := []
  progLen := 0
  stackCap := Config.defaultStackCap

end Sys2Proof.Machine
end

