-- ==== Sys2Proof/Machine/Memory.lean ====
section
/-!
DEFINITION. Program memory as a list of cells in one canonical form: addresses strictly rising, and no cell that holds
what an unlisted address reads as (log entry 2). Only the Loader writes it (spec/20_memory.md R31, R43).
-/

namespace Sys2Proof.Machine

/-- What an address with no cell reads as (log entry 2). -/
def Memory.unlisted : Byte := 0#8

/-- The byte at an address. -/
def Memory.read : List Host.Cell → Nat → Byte
  | [], _ => Memory.unlisted
  | (x, b) :: cells, a => if x = a then b else Memory.read cells a

/-- Writes one byte and keeps the canonical form. -/
def Memory.write : List Host.Cell → Nat → Byte → List Host.Cell
  | [], a, v => if v = Memory.unlisted then [] else [(a, v)]
  | (x, b) :: cells, a, v =>
    if x < a then (x, b) :: Memory.write cells a v
    else
      let after := if x = a then cells else (x, b) :: cells
      if v = Memory.unlisted then after else (a, v) :: after

/-- Writes bytes at rising addresses from `a` on. -/
def Memory.writeBytes : List Host.Cell → Nat → List Byte → List Host.Cell
  | cells, _, [] => cells
  | cells, a, v :: vs => Memory.writeBytes (Memory.write cells a v) (a + 1) vs

/-- The canonical form: addresses strictly rising, no cell equal to what an unlisted address reads as. -/
def Memory.wf : List Host.Cell → Bool
  | [] => true
  | (x, b) :: cells => b != Memory.unlisted && cells.all (fun c => decide (x < c.1)) && Memory.wf cells

/-- Every cell lies below the program's end. -/
def Memory.below (cells : List Host.Cell) (len : Nat) : Bool := cells.all (fun c => decide (c.1 < len))

end Sys2Proof.Machine
end

