-- ==== Sys2Proof/Machine/Ops.lean ====
section
/-!
DEFINITION. The named operations over the state: reading the program space, push and pop, taking a fault, committing
a step, and reset (spec/10_state.md R15, spec/20_memory.md R31 and R37, spec/60_exceptions.md R120 and R122,
spec/70_reset_and_hazards.md R140).
-/

namespace Sys2Proof.Machine

/-- `ProgRead` (R31): the byte at an address below `L`; at and above `L` there is none (R38). -/
def State.progRead (s : State) (a : Nat) : Option Byte :=
  if a < s.progLen then some (Memory.read s.prog a) else none

/-- The bytes at `n` consecutive addresses from `a` on, if all exist. -/
def State.progReadN (s : State) (a : Nat) : Nat → Option (List Byte)
  | 0 => some []
  | n + 1 =>
    match s.progRead a, s.progReadN (a + 1) n with
    | some b, some bs => some (b :: bs)
    | _, _ => none

/-- `pop()` of R15: the top, and the stack without it. -/
def pop (stack : List Word) : Except FaultKind (Word × List Word) :=
  match stack.getLast? with
  | none => .error .stackUnderflow
  | some v => .ok (v, stack.dropLast)

/-- `push(v)` of R15, on a stack of capacity `cap` (`none` is unbounded). -/
def push (cap : Option Nat) (v : Word) (stack : List Word) : Except FaultKind (List Word) :=
  if cap = some stack.length then .error .stackOverflow else .ok (stack ++ [v])

/-- Taking a fault (`raise K`, R120): `err <- K`, and `ip` and the stack as they were before the instruction (R122).
`s` is the state before the instruction. Nothing else is recorded (R118). -/
def State.raise (s : State) (k : FaultKind) : State := { s with err := some k }

/-- A completed instruction's writes: the new `ip` and the new stack. -/
def State.moveTo (s : State) (ip : BitVec 32) (stack : List Word) : State := { s with ip := ip, stack := stack }

/-- The end of an instruction that began in `s`: its writes if no test failed, else the fault alone (R120). -/
def State.commit (s : State) (r : Except FaultKind (BitVec 32 × List Word)) : Host.Outcome State Fault Refusal :=
  match r with
  | .ok (ip, stack) => .next (s.moveTo ip stack)
  | .error k => .next (s.raise k)

/-- Reset applied to a machine in any state: `ip`, the stack and `err` take their reset values; the program, its
length and the capacity stay (R140). -/
def State.applyReset (s : State) : State := { s with ip := 0#32, stack := [], err := none }

end Sys2Proof.Machine
end

