-- ==== Sys2Proof/Machine/Operands.lean ====
section
/-!
DEFINITION. The operand forms: the depth-addressed element (spec/41_stack.md R84), the two popped operands
(spec/42_arith.md R90), and the addresses of what follows an instruction (spec/10_state.md R13). Immediates are the
decoder's.
-/

namespace Sys2Proof.Machine

/-- The index of the element at depth `d` of a stack of `n` elements, in the integers: no wrap, no truncation (R84,
decision D15). -/
def depthIndex (n : Nat) (d : Word) : Int := (n : Int) - d.toInt - 1

/-- `stack[idx]` for the element at depth `d` (R84). -/
def readDepth (stack : List Word) (d : Word) : Except FaultKind Word :=
  let idx := depthIndex stack.length d
  if idx < 0 ∨ (stack.length : Int) ≤ idx then .error .addressOutOfRange
  else
    match stack[idx.toNat]? with
    | some v => .ok v
    | none => .error .addressOutOfRange

/-- `stack[idx] <- v` for the element at depth `d` (R84). -/
def writeDepth (stack : List Word) (d : Word) (v : Word) : Except FaultKind (List Word) :=
  let idx := depthIndex stack.length d
  if idx < 0 ∨ (stack.length : Int) ≤ idx then .error .addressOutOfRange
  else .ok (stack.set idx.toNat v)

/-- The address after a one-byte instruction at `ip` (R13). -/
def State.afterOp (s : State) : BitVec 32 := s.ip + 1#32

/-- The address after a five-byte instruction at `ip` (R13). -/
def State.afterOpi (s : State) : BitVec 32 := s.ip + 5#32

/-- The two-operand template (R90): `a`, the first popped, is the left operand; `b`, the second popped, the right one;
`f` checks and computes after both pops. -/
def twoOperand (s : State) (f : Word → Word → Except FaultKind Word) : Except FaultKind (BitVec 32 × List Word) := do
  let (a, stack) ← pop s.stack
  let (b, stack) ← pop stack
  let v ← f a b
  let stack ← push s.stackCap v stack
  return (s.afterOp, stack)

end Sys2Proof.Machine
end

