-- ==== Sys2Proof/Machine/Arith.lean ====
section
/-!
DEFINITION. ADD, SUB, MUL, DIV and MOD (spec/42_arith.md R90 to R98): the exact result in the integers, narrowed once at
the end. `a`, the first popped, is the left operand.
-/

namespace Sys2Proof.Machine

/-- `wrap32` (00_scope.md section 6.1): the `int32` congruent to `z` modulo `2^32`. -/
def wrap32 (z : Int) : Word := BitVec.ofInt 32 z

/-- The sum, wrapped (R91, R96). -/
def addWord (a b : Word) : Word := wrap32 (a.toInt + b.toInt)

/-- The difference, wrapped (R92, R96). -/
def subWord (a b : Word) : Word := wrap32 (a.toInt - b.toInt)

/-- The product, wrapped (R93, R96). -/
def mulWord (a b : Word) : Word := wrap32 (a.toInt * b.toInt)

/-- The quotient rounded toward zero, wrapped; the test is on `b` alone (R94, R97, R98). -/
def divWord (a b : Word) : Except FaultKind Word :=
  if b = 0#32 then .error .divideByZero else .ok (wrap32 (a.toInt.tdiv b.toInt))

/-- The remainder of that division, zero or of the sign of `a` (R95, R97, R98). -/
def modWord (a b : Word) : Except FaultKind Word :=
  if b = 0#32 then .error .divideByZero else .ok (wrap32 (a.toInt - b.toInt * a.toInt.tdiv b.toInt))

/-- ADD (R91). -/
def execAdd (s : State) : Host.Outcome State Fault Refusal := s.commit (twoOperand s fun a b => .ok (addWord a b))

/-- SUB (R92). -/
def execSub (s : State) : Host.Outcome State Fault Refusal := s.commit (twoOperand s fun a b => .ok (subWord a b))

/-- MUL (R93). -/
def execMul (s : State) : Host.Outcome State Fault Refusal := s.commit (twoOperand s fun a b => .ok (mulWord a b))

/-- DIV (R94). -/
def execDiv (s : State) : Host.Outcome State Fault Refusal := s.commit (twoOperand s divWord)

/-- MOD (R95). -/
def execMod (s : State) : Host.Outcome State Fault Refusal := s.commit (twoOperand s modWord)

end Sys2Proof.Machine
end

