-- ==== Sys2Proof/Machine/Flags.lean ====
section
/-!
DEFINITION. The machine has no status flags and no condition codes (spec/10_state.md R21). The outcome of a comparison
is a word on the stack (spec/43_compare.md R105), and a condition is tested on a popped word (spec/40_control.md R75).
-/

namespace Sys2Proof.Machine

/-- The word a comparison pushes: 1 if the relation holds, 0 if not (R105). -/
def truthWord (holds : Bool) : Word := if holds then 1#32 else 0#32

/-- The test of JUMP_IF_ZERO, on the whole word (R75). -/
def isZero (cond : Word) : Bool := cond == 0#32

end Sys2Proof.Machine
end

