-- ==== Sys2Proof/Machine/Compare.lean ====
section
/-!
DEFINITION. EQ, GT, LT, GE and LE (spec/43_compare.md R100 to R105): the signed values are compared, `a` (the first
popped) on the left, and the outcome is pushed as 1 or 0.
-/

namespace Sys2Proof.Machine

/-- EQ (R100). -/
def execEq (s : State) : Host.Outcome State Fault Refusal :=
  s.commit (twoOperand s fun a b => .ok (truthWord (decide (a.toInt = b.toInt))))

/-- GT (R101). -/
def execGt (s : State) : Host.Outcome State Fault Refusal :=
  s.commit (twoOperand s fun a b => .ok (truthWord (decide (b.toInt < a.toInt))))

/-- LT (R102). -/
def execLt (s : State) : Host.Outcome State Fault Refusal :=
  s.commit (twoOperand s fun a b => .ok (truthWord (decide (a.toInt < b.toInt))))

/-- GE (R103). -/
def execGe (s : State) : Host.Outcome State Fault Refusal :=
  s.commit (twoOperand s fun a b => .ok (truthWord (decide (b.toInt ≤ a.toInt))))

/-- LE (R104). -/
def execLe (s : State) : Host.Outcome State Fault Refusal :=
  s.commit (twoOperand s fun a b => .ok (truthWord (decide (a.toInt ≤ b.toInt))))

end Sys2Proof.Machine
end

