-- ==== Sys2Proof/Machine/Control.lean ====
section
/-!
DEFINITION. HALT, JUMP and JUMP_IF_ZERO (spec/40_control.md R73 to R75). In every meaning `s` is the state at the start
of the step, with `ip` at the opcode byte (log entry 15).
-/

namespace Sys2Proof.Machine

/-- HALT (R73): `ip <- L`; the stack is neither read nor changed. -/
def execHalt (s : State) : Host.Outcome State Fault Refusal :=
  s.commit (.ok (BitVec.ofNat 32 s.progLen, s.stack))

/-- JUMP (R74): the popped pattern, read as unsigned, is the next `ip`; it is not checked in any way. -/
def execJump (s : State) : Host.Outcome State Fault Refusal :=
  s.commit do
    let (target, stack) ← pop s.stack
    return (target, stack)

/-- JUMP_IF_ZERO (R75): pops `target`, then `cond`; jumps if `cond` is 0, else goes on after the opcode. -/
def execJumpIfZero (s : State) : Host.Outcome State Fault Refusal :=
  s.commit do
    let (target, stack) ← pop s.stack
    let (cond, stack) ← pop stack
    return (if isZero cond then target else s.afterOp, stack)

end Sys2Proof.Machine
end

