-- ==== Sys2Proof/Machine/Stack.lean ====
section
/-!
DEFINITION. PUSH_CONST, LOAD_AT_DEPTH, STORE_AT_DEPTH and DROP_N (spec/41_stack.md R80 to R83). The immediate has been
fetched and the truncated one reported before a meaning runs (R72; log entry 15).
-/

namespace Sys2Proof.Machine

/-- PUSH_CONST (R80). -/
def execPushConst (v : Word) (s : State) : Host.Outcome State Fault Refusal :=
  s.commit do
    let stack ← push s.stackCap v s.stack
    return (s.afterOpi, stack)

/-- LOAD_AT_DEPTH (R81): the range check comes before the push. -/
def execLoadAtDepth (d : Word) (s : State) : Host.Outcome State Fault Refusal :=
  s.commit do
    let v ← readDepth s.stack d
    let stack ← push s.stackCap v s.stack
    return (s.afterOpi, stack)

/-- STORE_AT_DEPTH (R82): the depth counts from the top that remains after the pop. -/
def execStoreAtDepth (d : Word) (s : State) : Host.Outcome State Fault Refusal :=
  s.commit do
    let (value, stack) ← pop s.stack
    let stack ← writeDepth stack d value
    return (s.afterOpi, stack)

/-- The stack after `n` values are discarded: R83's second form, which is no loop of up to `2^31` pops.
`popMany_eq_dropTop` proves the first form, `n` pops in a row, equal to it. -/
def dropTop (n : Nat) (stack : List Word) : Except FaultKind (List Word) :=
  if stack.length < n then .error .stackUnderflow else .ok (stack.take (stack.length - n))

/-- DROP_N (R83): the sign of the count is tested before the stack is looked at (decision D16). -/
def execDropN (n : Word) (s : State) : Host.Outcome State Fault Refusal :=
  s.commit do
    if n.toInt < 0 then throw .malformedProgram
    let stack ← dropTop n.toInt.toNat s.stack
    return (s.afterOpi, stack)

end Sys2Proof.Machine
end

