-- ==== Sys2Proof/Machine/Dispatch.lean ====
section
/-!
DEFINITION. One arm per instruction: what it does in a state whose `ip` is at its opcode byte.
-/

namespace Sys2Proof.Machine

def exec (i : Instr) (s : State) : Host.Outcome State Fault Refusal :=
  match i with
  | .halt => Sys2Proof.Machine.execHalt s
  | .jump => Sys2Proof.Machine.execJump s
  | .jumpIfZero => Sys2Proof.Machine.execJumpIfZero s
  | .pushConst v => Sys2Proof.Machine.execPushConst v s
  | .loadAtDepth d => Sys2Proof.Machine.execLoadAtDepth d s
  | .storeAtDepth d => Sys2Proof.Machine.execStoreAtDepth d s
  | .dropN n => Sys2Proof.Machine.execDropN n s
  | .add => Sys2Proof.Machine.execAdd s
  | .sub => Sys2Proof.Machine.execSub s
  | .mul => Sys2Proof.Machine.execMul s
  | .div => Sys2Proof.Machine.execDiv s
  | .mod => Sys2Proof.Machine.execMod s
  | .eq => Sys2Proof.Machine.execEq s
  | .gt => Sys2Proof.Machine.execGt s
  | .lt => Sys2Proof.Machine.execLt s
  | .ge => Sys2Proof.Machine.execGe s
  | .le => Sys2Proof.Machine.execLe s

end Sys2Proof.Machine
end

