-- ==== Sys2Proof/WellFormed.lean ====
section
/-!
DEFINITION. The checks on what is given to the machine. An instruction term cannot be ill-formed: every one of the
`2^32` immediates of each OPI instruction decodes, and a value that an instruction rejects is rejected when it runs,
with a fault (spec/30_encoding.md R57). What is checked is the program image: its length (spec/00_scope.md R2,
decision D2: a longer one is refused). Its content is not checked at all (spec/10_state.md R11).
-/

namespace Sys2Proof

/-- The length of a program is at most `2^31 - 1` (R2). -/
def progLenOk (len : Nat) : Bool := decide (len ≤ Config.maxProgLen)

/-- A program image the machine takes: any bytes, of an admitted length (R2, R11, R62). -/
def imageOk (image : List Byte) : Bool := progLenOk image.length

end Sys2Proof
end

