-- ==== Sys2Proof/Decode.lean ====
section
/-!
DEFINITION. The decoder, total on any bytes and rejecting by name, and the encoder written from the same opcode map
(spec/30_encoding.md R50 to R58, spec/20_memory.md R33).
-/

namespace Sys2Proof

/-- What a defined opcode byte selects: a whole instruction, or one that still takes the four immediate bytes. -/
inductive Form where
  /-- Format OP (R51): the byte is the whole instruction. -/
  | op (i : Instr)
  /-- Format OPI (R52): the instruction is complete with its immediate. -/
  | opi (withImm : Word → Instr)

/-- Why bytes are no instruction. -/
inductive DecodeError where
  /-- There is no opcode byte: an empty list of bytes. The fetch never offers one (R37). -/
  | noOpcode
  /-- The first byte is none of the 17 opcodes (R56). -/
  | unknownOpcode
  /-- Fewer than four bytes follow the opcode of an OPI instruction (R72). -/
  | truncatedImmediate
  deriving DecidableEq, Repr

/-- The opcode map of R55: the whole byte is compared, its nibbles are no fields. -/
def selectOpcode (b : Byte) : Option Form :=
  match b with
  | 0x00#8 => some (.op .halt)
  | 0x01#8 => some (.op .jump)
  | 0x02#8 => some (.op .jumpIfZero)
  | 0x10#8 => some (.opi .pushConst)
  | 0x11#8 => some (.opi .loadAtDepth)
  | 0x20#8 => some (.opi .storeAtDepth)
  | 0x21#8 => some (.opi .dropN)
  | 0x30#8 => some (.op .add)
  | 0x31#8 => some (.op .sub)
  | 0x32#8 => some (.op .mul)
  | 0x33#8 => some (.op .div)
  | 0x34#8 => some (.op .mod)
  | 0x40#8 => some (.op .eq)
  | 0x41#8 => some (.op .gt)
  | 0x42#8 => some (.op .lt)
  | 0x43#8 => some (.op .ge)
  | 0x44#8 => some (.op .le)
  | _ => none

/-- How many immediate bytes the instruction with first byte `b` has; the first byte alone tells (R53). -/
def immediateBytes (b : Byte) : Nat :=
  match selectOpcode b with
  | some (.opi _) => 4
  | _ => 0

/-- The immediate of four bytes, the first the most significant (R33, R54). Its signed value is the word's `toInt`. -/
def assembleImm (b1 b2 b3 b4 : Byte) : Word :=
  BitVec.ofNat 32 (b1.toNat * 2 ^ 24 + b2.toNat * 2 ^ 16 + b3.toNat * 2 ^ 8 + b4.toNat)

/-- Reads one instruction from the front of the bytes and gives it with the bytes after it. -/
def decode : List Byte → Except DecodeError (Instr × List Byte)
  | [] => .error .noOpcode
  | b :: rest =>
    match selectOpcode b with
    | none => .error .unknownOpcode
    | some (.op i) => .ok (i, rest)
    | some (.opi withImm) =>
      match rest with
      | b1 :: b2 :: b3 :: b4 :: rest' => .ok (withImm (assembleImm b1 b2 b3 b4), rest')
      | _ => .error .truncatedImmediate

/-- The four bytes of an immediate, most significant first (R52). -/
def immBytes (v : Word) : List Byte :=
  [BitVec.ofNat 8 (v.toNat / 2 ^ 24), BitVec.ofNat 8 (v.toNat / 2 ^ 16),
    BitVec.ofNat 8 (v.toNat / 2 ^ 8), BitVec.ofNat 8 v.toNat]

/-- The bytes of an instruction, at rising addresses (R51, R52, R55). -/
def encode : Instr → List Byte
  | .halt => [0x00#8]
  | .jump => [0x01#8]
  | .jumpIfZero => [0x02#8]
  | .pushConst v => 0x10#8 :: immBytes v
  | .loadAtDepth d => 0x11#8 :: immBytes d
  | .storeAtDepth d => 0x20#8 :: immBytes d
  | .dropN n => 0x21#8 :: immBytes n
  | .add => [0x30#8]
  | .sub => [0x31#8]
  | .mul => [0x32#8]
  | .div => [0x33#8]
  | .mod => [0x34#8]
  | .eq => [0x40#8]
  | .gt => [0x41#8]
  | .lt => [0x42#8]
  | .ge => [0x43#8]
  | .le => [0x44#8]

/-- The five bytes (the longest instruction, R50) of an instruction given as a number as spec/opcode_table.json
numbers its bits: the first byte is bits 7..0, the next bits 15..8, and so on; every bit from `nbits` up is 0. -/
def tableBytes (nbits w : Nat) : List Byte :=
  let v := w % 2 ^ nbits
  [BitVec.ofNat 8 v, BitVec.ofNat 8 (v / 2 ^ 8), BitVec.ofNat 8 (v / 2 ^ 16),
    BitVec.ofNat 8 (v / 2 ^ 24), BitVec.ofNat 8 (v / 2 ^ 32)]

/-- The instruction the decoder reads from those bytes. -/
def decodeTableWord (nbits w : Nat) : Option Instr :=
  match decode (tableBytes nbits w) with
  | .ok (i, _) => some i
  | .error _ => none

end Sys2Proof
end

