-- ==== Sys2Proof/Machine/Fetch.lean ====
section
/-!
DEFINITION. Fetching and decoding the instruction at `ip` (spec/40_control.md R70 lines 3 to 5 and R72,
spec/20_memory.md R36 and R37).
-/

namespace Sys2Proof.Machine

/-- The bytes of the instruction at `ip`: the opcode byte, and the immediate bytes of an OPI opcode if all four exist.
Where fewer than four remain, none of them is read (R37) and the decoder reports the truncation (R72). -/
def State.fetchBytes (s : State) : Option (List Byte) :=
  match s.progRead s.ip.toNat with
  | none => none
  | some b =>
    if s.progLen - (s.ip.toNat + 1) < immediateBytes b then some [b]
    else
      match s.progReadN (s.ip.toNat + 1) (immediateBytes b) with
      | none => none
      | some bs => some (b :: bs)

/-- What the fetch unit gives. -/
inductive Fetched where
  /-- An instruction, to be run. -/
  | instr (i : Instr)
  /-- A fault of fetch or decode. -/
  | raises (k : FaultKind)
  /-- A byte that does not exist was asked for. -/
  | noByte
  deriving DecidableEq, Repr

/-- Fetches and decodes at `ip`: an undefined opcode raises UnknownOpcode before an immediate is looked at (R56), a
truncated immediate raises MalformedProgram before the instruction's effect (R72, R145). -/
def State.fetchInstr (s : State) : Fetched :=
  match s.fetchBytes with
  | none => .noByte
  | some bs =>
    match decode bs with
    | .ok (i, _) => .instr i
    | .error .unknownOpcode => .raises .unknownOpcode
    | .error .truncatedImmediate => .raises .malformedProgram
    | .error .noOpcode => .noByte

end Sys2Proof.Machine
end

