-- ==== Sys2Proof/Machine/Load.lean ====
section
/-!
DEFINITION. What the Loader does from outside: placing program bytes and constructing a machine
(spec/60_exceptions.md R130, spec/70_reset_and_hazards.md R140 and R142, spec/30_encoding.md R62).
-/

namespace Sys2Proof.Machine

/-- Bytes placed in the program space from address `a` on, which becomes long enough to hold them. -/
def State.placeBytes (s : State) (a : Nat) (bytes : List Byte) : State :=
  { s with prog := Memory.writeBytes s.prog a bytes, progLen := max s.progLen (a + bytes.length) }

/-- `construct(program)`: a machine of capacity `cap` with the image loaded, in its reset values. The content is not
looked at (R11); an image that is too long is refused (R2). -/
def construct (cap : Option Nat) (image : List Byte) : Except Refusal State :=
  if imageOk image then .ok (({ State.reset with stackCap := cap } : State).placeBytes 0 image)
  else .error .programTooLong

/-- Where `State.withFetchWord` places an instruction of up to five bytes: at `ip`, or at 0 when no program may reach
that far (R2; log entry 17). -/
def State.fetchPlace (s : State) : BitVec 32 :=
  if progLenOk (s.ip.toNat + 5) then s.ip else 0#32

end Sys2Proof.Machine
end

