-- ==== Sys2Proof/Machine/Ports.lean ====
section
/-!
DEFINITION. The ports the host reads: status, result and final, and the numeric code of the latch (spec/10_state.md
R18 to R20, spec/60_exceptions.md R110). They are functions of the state; reading one changes nothing.
-/

namespace Sys2Proof.Machine

/-- The values of the status port (R19). -/
inductive Status where
  | running
  | halted
  | faulted (k : FaultKind)
  deriving DecidableEq, Repr

/-- Halt detection: the comparison `ip >= L`, the only halt mechanism (R19). -/
def State.atEnd (s : State) : Bool := decide (s.progLen ≤ s.ip.toNat)

/-- The status port (R19). -/
def State.status (s : State) : Status :=
  match s.err with
  | some k => .faulted k
  | none => if s.atEnd then .halted else .running

/-- The values of the result port (R20). -/
inductive ResultRead where
  | value (v : Word)
  | emptyResult
  | invalid (k : FaultKind)
  deriving DecidableEq, Repr

/-- The result port (R20). -/
def State.result (s : State) : ResultRead :=
  match s.err with
  | some k => .invalid k
  | none =>
    match s.stack.getLast? with
    | some v => .value v
    | none => .emptyResult

/-- The `final` port: the value read is the result of a run that has ended (R20). -/
def State.final (s : State) : Bool := decide (s.status = .halted)

/-- The code of a fault kind (R110). -/
def faultCode : FaultKind → BitVec 3
  | .stackUnderflow => 1#3
  | .addressOutOfRange => 2#3
  | .malformedProgram => 3#3
  | .divideByZero => 4#3
  | .unknownOpcode => 5#3
  | .stackOverflow => 7#3

/-- The field `err.kind` (R18): 0 is `None`, and 6 is never held. -/
def State.errKind (s : State) : BitVec 3 :=
  match s.err with
  | none => 0#3
  | some k => faultCode k

/-- The code of the response `EmptyResult` of the result port (R110, R116). -/
def emptyResultCode : BitVec 3 := 6#3

end Sys2Proof.Machine
end

