-- ==== Sys2Proof/Machine/Step.lean ====
section
/-!
DEFINITION. One step (spec/40_control.md R70), with `run` asserted (log entry 14).
-/

namespace Sys2Proof.Machine

/-- A faulted and a halted machine do nothing; a running one fetches, decodes and runs one instruction (R70). A program
that is too long for the spec has no steps (R2, D2; log entry 5). -/
def step (s : State) : Host.Outcome State Fault Refusal :=
  if progLenOk s.progLen then
    match s.status with
    | .faulted _ => .next s
    | .halted => .next s
    | .running =>
      match s.fetchInstr with
      | .instr i => exec i s
      | .raises k => .next (s.raise k)
      | .noByte => .fault .noProgramByte
  else .refused .programTooLong

/-- `s` with an instruction placed where the next step fetches, for the host's questions: the program is loaded from
outside (log entries 3 and 17). The latch is cleared, since a faulted machine fetches nothing. A program length that
the spec refuses is replaced by that of the placed bytes alone. -/
def State.withFetchWord (s : State) (nbits w : Nat) : State :=
  let base := if progLenOk s.progLen then s else { s with prog := [], progLen := 0 }
  { base.placeBytes s.fetchPlace.toNat (tableBytes nbits w) with ip := s.fetchPlace, err := none }

end Sys2Proof.Machine
end

