-- ==== Sys2Proof/Machine/Run.lean ====
section
/-!
DEFINITION. `run()`: steps while the status is Running (spec/40_control.md R71), under a bound on the number of steps.
Reaching the bound means "not yet ended", never "halted" (spec/70_reset_and_hazards.md R146).
-/

namespace Sys2Proof.Machine

/-- How a bounded run stands. -/
inductive RunEnd where
  /-- The run has ended: the status is not Running (R131). -/
  | ended (s : State)
  /-- The bound was reached with the machine still Running. -/
  | notYet (s : State)
  /-- A step of the model stopped. -/
  | fault (r : Fault)
  /-- A step of the model was refused. -/
  | refused (r : Refusal)
  deriving DecidableEq, Repr

/-- At most `n` steps of `run()` (R71). -/
def run : Nat → State → RunEnd
  | 0, s => if s.status = .running then .notYet s else .ended s
  | n + 1, s =>
    if s.status = .running then
      match step s with
      | .next t => run n t
      | .fault r => .fault r
      | .refused r => .refused r
    else .ended s

end Sys2Proof.Machine
end

