-- ==== Sys2Proof/Safety.lean ====
section
/-!
DEFINITION. What claims are stated in: the states a machine can be in, and how a run ends (spec/10_state.md R10, R15,
R19; spec/60_exceptions.md R118, R131).
-/

namespace Sys2Proof.Machine

/-- The stack holds at most `STACK_CAP` elements (R10). -/
def State.stackFits (s : State) : Bool :=
  match s.stackCap with
  | none => true
  | some cap => decide (s.stack.length ≤ cap)

/-- The invariant of the machine: the program memory is in its canonical form and lies below `L`, `L` is admitted (R2),
the stack fits its capacity (R10), and a faulted machine's `ip` is at an opcode byte of the program (R118, R122). -/
def State.inv (s : State) : Bool :=
  Memory.wf s.prog && Memory.below s.prog s.progLen && progLenOk s.progLen && s.stackFits &&
    (s.err.isNone || !s.atEnd)

/-- A run has ended: the status is not Running (R131). -/
def State.ended (s : State) : Bool := decide (s.status ≠ .running)

/-- A run has ended successfully: the status is Halted (R131). A faulted machine never has (R121). -/
def State.endedWell (s : State) : Bool := decide (s.status = .halted)

end Sys2Proof.Machine
end

