-- ==== Sys2Proof/Certificates/Slice0/Obligations.lean ====
section
/-!
DEFINITION. The statements for the provers. Each docstring names the rule of the spec it formalises; where a clause
rests on one of the spec's own decisions (spec/92_eei_decisions.md) or on the model's choice, the docstring says so.
In every statement a stack `below ++ [b, a]` has `a` on top.
-/

open Sys2Proof Sys2Proof.Machine

/-! ## Encoding -/

/-- R51, R52, R55: the bytes of every instruction, with any bytes after them, decode to that instruction. -/
def Obligations.EncodedInstructionsDecodeBack : Prop :=
  ∀ (i : Instr) (rest : List Byte), decode (encode i ++ rest) = .ok (i, rest)

/-- R57: each instruction has one encoding; what decodes to it begins with exactly its bytes. -/
def Obligations.DecodedBytesAreTheEncoding : Prop :=
  ∀ (bs : List Byte) (i : Instr) (rest : List Byte), decode bs = .ok (i, rest) → bs = encode i ++ rest

/-- R55: the opcode map's 17 rows, each as bytes written out from the table; the immediates are those of the table of
examples in R54 and of vector T1. -/
def Obligations.OpcodeMapRowsDecode : Prop :=
  decode [0x00#8] = .ok (.halt, []) ∧ decode [0x01#8] = .ok (.jump, []) ∧ decode [0x02#8] = .ok (.jumpIfZero, []) ∧
  decode [0x10#8, 0x12#8, 0x34#8, 0x56#8, 0x78#8] = .ok (.pushConst 305419896#32, []) ∧
  decode [0x11#8, 0x00#8, 0x00#8, 0x01#8, 0x00#8] = .ok (.loadAtDepth 256#32, []) ∧
  decode [0x20#8, 0x00#8, 0x00#8, 0x00#8, 0x0A#8] = .ok (.storeAtDepth 10#32, []) ∧
  decode [0x21#8, 0xFF#8, 0xFF#8, 0xFF#8, 0xFF#8] = .ok (.dropN (-1#32), []) ∧
  decode [0x30#8] = .ok (.add, []) ∧ decode [0x31#8] = .ok (.sub, []) ∧ decode [0x32#8] = .ok (.mul, []) ∧
  decode [0x33#8] = .ok (.div, []) ∧ decode [0x34#8] = .ok (.mod, []) ∧ decode [0x40#8] = .ok (.eq, []) ∧
  decode [0x41#8] = .ok (.gt, []) ∧ decode [0x42#8] = .ok (.lt, []) ∧ decode [0x43#8] = .ok (.ge, []) ∧
  decode [0x44#8] = .ok (.le, [])

/-- R33: of the four program bytes after an opcode that has an immediate, the one at the lowest address is the most
significant, and the 32-bit number is two's-complement; this for each of the four opcodes. -/
def Obligations.ImmediateIsBigEndianTwosComplement : Prop :=
  ∀ (s : State) (op : Byte) (withImm : Word → Instr),
    ((op = 0x10#8 ∧ withImm = .pushConst) ∨ (op = 0x11#8 ∧ withImm = .loadAtDepth) ∨
      (op = 0x20#8 ∧ withImm = .storeAtDepth) ∨ (op = 0x21#8 ∧ withImm = .dropN)) →
    ∀ (p : Nat) (b1 b2 b3 b4 : Byte), p = s.ip.toNat + 1 → s.progRead s.ip.toNat = some op →
      s.progRead p = some b1 → s.progRead (p + 1) = some b2 → s.progRead (p + 2) = some b3 →
      s.progRead (p + 3) = some b4 →
      ∃ imm : Word, s.fetchInstr = .instr (withImm imm) ∧
        let u : Nat := b1.toNat * 2 ^ 24 + b2.toNat * 2 ^ 16 + b3.toNat * 2 ^ 8 + b4.toNat
        imm.toInt = if u < 2 ^ 31 then (u : Int) else (u : Int) - 2 ^ 32

/-- R50, R53: an instruction is 1 or 5 bytes long, and its first byte alone tells which. -/
def Obligations.FirstByteAloneGivesTheLength : Prop :=
  ∀ (b : Byte) (bytes : List Byte) (i : Instr) (rest : List Byte), decode (b :: bytes) = .ok (i, rest) →
    (b :: bytes).length = i.length + rest.length ∧
    i.length = if b = 0x10#8 ∨ b = 0x11#8 ∨ b = 0x20#8 ∨ b = 0x21#8 then 5 else 1

/-! ## The step -/

/-- R70: in a running machine whose program holds, from `ip` on, bytes that decode to `i`, the step is `exec i` in that
same state. Nothing is added around `exec`: `ip` still points at the opcode byte, and `exec` writes the next `ip`. -/
def Obligations.StepRunsDecodedInstruction : Prop :=
  ∀ (s : State) (bs : List Byte) (i : Instr) (rest : List Byte),
    s.progLen ≤ Config.maxProgLen → s.status = .running →
    s.progReadN s.ip.toNat bs.length = some bs → decode bs = .ok (i, rest) → step s = exec i s

/-- R70 lines 1 and 2, R19: a faulted and a halted machine take steps that change nothing (that the faulted one does is
decision D6). -/
def Obligations.HaltedAndFaultedMachinesStandStill : Prop :=
  ∀ s : State, s.progLen ≤ Config.maxProgLen →
    (s.err ≠ none ∨ s.progLen ≤ s.ip.toNat) → step s = .next s

/-- R37 and R11 (decision D13): every step of every program of an admitted length is defined, and the fetch never asks
for a byte at or above `L`. -/
def Obligations.EveryStepAnswersANextState : Prop :=
  ∀ s : State, s.progLen ≤ Config.maxProgLen → ∃ t, step s = .next t

/-- Every instruction completes or takes a fault of the spec; none stops the model. From the rules of the 17
instructions. -/
def Obligations.EveryInstructionAnswersANextState : Prop :=
  ∀ (i : Instr) (s : State), ∃ t, exec i s = .next t

/-- Decision D2 (R2): a program longer than `2^31 - 1` bytes is refused, at construction and by the step. -/
def Obligations.TooLongProgramIsRefused : Prop :=
  (∀ s : State, Config.maxProgLen < s.progLen → step s = .refused .programTooLong) ∧
  ∀ (cap : Option Nat) (image : List Byte), Config.maxProgLen < image.length →
    construct cap image = .error .programTooLong

/-- R72: the immediate fetch. Four remaining bytes are enough, and the instruction that runs has the number they spell;
with fewer the step raises MalformedProgram, whatever the stack holds. (How a raised fault is held in `err` is decision
D6.) -/
def Obligations.ImmediateFetchNeedsFourBytes : Prop :=
  ∀ (s : State) (op : Byte) (withImm : Word → Instr),
    ((op = 0x10#8 ∧ withImm = .pushConst) ∨ (op = 0x11#8 ∧ withImm = .loadAtDepth) ∨
      (op = 0x20#8 ∧ withImm = .storeAtDepth) ∨ (op = 0x21#8 ∧ withImm = .dropN)) →
    s.progLen ≤ Config.maxProgLen → s.err = none → s.progRead s.ip.toNat = some op →
    if s.progLen - (s.ip.toNat + 1) < 4 then ∃ t, step s = .next t ∧ t.err = some .malformedProgram
    else ∃ b1 b2 b3 b4 : Byte,
      s.progRead (s.ip.toNat + 1) = some b1 ∧ s.progRead (s.ip.toNat + 2) = some b2 ∧
      s.progRead (s.ip.toNat + 3) = some b3 ∧ s.progRead (s.ip.toNat + 4) = some b4 ∧
      step s = exec (withImm (BitVec.ofNat 32
        (b1.toNat * 2 ^ 24 + b2.toNat * 2 ^ 16 + b3.toNat * 2 ^ 8 + b4.toNat))) s

/-! ## Control instructions -/

/-- R73: HALT decodes from the byte 0, sets `ip` to `L`, changes nothing else, cannot fault, and leaves a machine that
stays halted. -/
def Obligations.HaltSetsIpToProgramLength : Prop :=
  (∀ rest : List Byte, decode (0x00#8 :: rest) = .ok (.halt, rest)) ∧
  ∀ s : State, s.progLen ≤ Config.maxProgLen →
    ∃ t, exec .halt s = .next t ∧ t.ip.toNat = s.progLen ∧ t = { s with ip := t.ip } ∧
      (s.err = none → t.status = .halted ∧ step t = .next t)

/-- R74: JUMP pops the target and makes its 32-bit pattern, read as unsigned (decision D1), the next `ip`; nothing else
changes. On an empty stack it raises StackUnderflow, which changes only `err` (decision D7). -/
def Obligations.JumpGoesToThePoppedTarget : Prop :=
  (∀ (s : State) (below : List Word) (target : Word), s.stack = below ++ [target] →
    exec .jump s = .next { s with ip := BitVec.ofNat 32 target.toNat, stack := below }) ∧
  ∀ s : State, s.stack = [] → exec .jump s = .next { s with err := some .stackUnderflow }

/-- R75: JUMP_IF_ZERO pops the target, then the condition, and jumps (to the pattern read as unsigned, decision D1) only
if the condition is 0; else `ip` goes to the byte after the opcode. With fewer than two elements it raises
StackUnderflow, which changes only `err` (decision D7). -/
def Obligations.JumpIfZeroPopsTargetThenCondition : Prop :=
  (∀ (s : State) (below : List Word) (cond target : Word), s.stack = below ++ [cond, target] →
    exec .jumpIfZero s =
      .next { s with ip := if cond = 0#32 then BitVec.ofNat 32 target.toNat else s.ip + 1#32, stack := below }) ∧
  ∀ s : State, s.stack.length < 2 → exec .jumpIfZero s = .next { s with err := some .stackUnderflow }

/-- R74, R75, conflict C1: a target at or above `L`, or a negative one, raises no fault; the jump leaves a halted
machine. -/
def Obligations.TargetsOutsideTheProgramHalt : Prop :=
  ∀ (s : State) (below : List Word) (target : Word), s.progLen ≤ Config.maxProgLen → s.err = none →
    (target.toInt < 0 ∨ (s.progLen : Int) ≤ target.toInt) →
    (s.stack = below ++ [target] → ∃ t, exec .jump s = .next t ∧ t.status = .halted ∧ step t = .next t) ∧
    (s.stack = below ++ [0#32, target] → ∃ t, exec .jumpIfZero s = .next t ∧ t.status = .halted ∧ step t = .next t)

/-! ## Stack instructions -/

/-- R80: PUSH_CONST pushes its immediate unchanged and goes on five bytes later; a full stack raises StackOverflow
(decision D3). -/
def Obligations.PushConstPushesItsImmediate : Prop :=
  ∀ (v : Word) (s : State),
    (s.stackCap ≠ some s.stack.length →
      exec (.pushConst v) s = .next { s with ip := s.ip + 5#32, stack := s.stack ++ [v] }) ∧
    (s.stackCap = some s.stack.length → exec (.pushConst v) s = .next { s with err := some .stackOverflow })

/-- R81, R84: LOAD_AT_DEPTH pushes a copy of the element that has `d` elements above it and changes no other; a full
stack raises StackOverflow (decision D3). -/
def Obligations.LoadAtDepthCopiesTheElement : Prop :=
  ∀ (d : Word) (s : State) (below above : List Word) (v : Word),
    s.stack = below ++ v :: above → d.toInt = above.length →
    (s.stackCap ≠ some s.stack.length →
      exec (.loadAtDepth d) s = .next { s with ip := s.ip + 5#32, stack := below ++ v :: above ++ [v] }) ∧
    (s.stackCap = some s.stack.length → exec (.loadAtDepth d) s = .next { s with err := some .stackOverflow })

/-- R82, R84: STORE_AT_DEPTH pops the value and writes it over the element that then has `d` elements above it; every
other element stays as it was. -/
def Obligations.StoreAtDepthOverwritesTheElement : Prop :=
  ∀ (d : Word) (s : State) (below above : List Word) (old value : Word),
    s.stack = below ++ old :: above ++ [value] → d.toInt = above.length →
    exec (.storeAtDepth d) s = .next { s with ip := s.ip + 5#32, stack := below ++ value :: above }

/-- R83: DROP_N discards the top `n` elements; `n` 0 changes only `ip`, also on an empty stack. -/
def Obligations.DropNDiscardsTheTopElements : Prop :=
  ∀ (n : Word) (s : State) (below dropped : List Word),
    s.stack = below ++ dropped → n.toInt = dropped.length →
    exec (.dropN n) s = .next { s with ip := s.ip + 5#32, stack := below }

/-- R147: a value stored at a depth is read back by a load of the same depth. -/
def Obligations.LoadAfterStoreReadsTheStoredValue : Prop :=
  ∀ (d : Word) (s t : State), s.err = none → exec (.storeAtDepth d) s = .next t → t.err = none →
    t.stackCap ≠ some t.stack.length →
    ∃ u, exec (.loadAtDepth d) t = .next u ∧ u.err = none ∧ u.stack.getLast? = s.stack.getLast?

/-! ## Arithmetic -/

/-- R91, R92, R93 with decision D4 (R96): ADD, SUB and MUL push the 32-bit value that is congruent to the exact signed
result modulo `2^32`; nothing but `ip` and the stack changes. The premise that the stack fits its capacity is part of the
invariant. -/
def Obligations.AddSubMulPushTheWrappedResult : Prop :=
  ∀ (s : State) (below : List Word) (b a : Word), s.stackFits = true → s.stack = below ++ [b, a] →
    (∃ v : Word, v.toInt = (a.toInt + b.toInt).bmod (2 ^ 32) ∧
      exec .add s = .next { s with ip := s.ip + 1#32, stack := below ++ [v] }) ∧
    (∃ v : Word, v.toInt = (a.toInt - b.toInt).bmod (2 ^ 32) ∧
      exec .sub s = .next { s with ip := s.ip + 1#32, stack := below ++ [v] }) ∧
    (∃ v : Word, v.toInt = (a.toInt * b.toInt).bmod (2 ^ 32) ∧
      exec .mul s = .next { s with ip := s.ip + 1#32, stack := below ++ [v] })

/-- R91, R92, R93 without decision D4: where the exact result is in range, it is the value pushed. -/
def Obligations.AddSubMulAreExactInRange : Prop :=
  ∀ (s : State) (below : List Word) (b a : Word), s.stackFits = true → s.stack = below ++ [b, a] →
    (-2 ^ 31 ≤ a.toInt + b.toInt → a.toInt + b.toInt < 2 ^ 31 →
      ∃ v : Word, v.toInt = a.toInt + b.toInt ∧
        exec .add s = .next { s with ip := s.ip + 1#32, stack := below ++ [v] }) ∧
    (-2 ^ 31 ≤ a.toInt - b.toInt → a.toInt - b.toInt < 2 ^ 31 →
      ∃ v : Word, v.toInt = a.toInt - b.toInt ∧
        exec .sub s = .next { s with ip := s.ip + 1#32, stack := below ++ [v] }) ∧
    (-2 ^ 31 ≤ a.toInt * b.toInt → a.toInt * b.toInt < 2 ^ 31 →
      ∃ v : Word, v.toInt = a.toInt * b.toInt ∧
        exec .mul s = .next { s with ip := s.ip + 1#32, stack := below ++ [v] })

/-- R94, R97: for a divisor that is not 0, DIV pushes the quotient of the top by the element below it, rounded toward
zero. The one quotient that is out of range is left to the next statement. -/
def Obligations.DivTruncatesTowardZero : Prop :=
  ∀ (s : State) (below : List Word) (b a : Word), s.stackFits = true → s.stack = below ++ [b, a] →
    b ≠ 0#32 → ¬(a.toInt = -2 ^ 31 ∧ b.toInt = -1) →
    ∃ q : Word, q.toInt = a.toInt.tdiv b.toInt ∧
      exec .div s = .next { s with ip := s.ip + 1#32, stack := below ++ [q] }

/-- Decision D5 (R97): `INT32_MIN / -1` pushes `INT32_MIN` and `INT32_MIN % -1` pushes 0, with no fault. -/
def Obligations.MinByMinusOneWraps : Prop :=
  ∀ (s : State) (below : List Word), s.stackFits = true → s.stack = below ++ [-1#32, Word.int32Min] →
    exec .div s = .next { s with ip := s.ip + 1#32, stack := below ++ [Word.int32Min] } ∧
    exec .mod s = .next { s with ip := s.ip + 1#32, stack := below ++ [0#32] }

/-- R95, R97: for a divisor that is not 0, MOD pushes the remainder `r` of the truncating division: `a = b * q + r`,
`|r| < |b|`, and `r` is 0 or has the sign of `a`. (For `INT32_MIN` and -1, which decision D5 settles, `q` is the exact
quotient, and `r` is 0.) -/
def Obligations.ModPushesTheRemainder : Prop :=
  ∀ (s : State) (below : List Word) (b a : Word), s.stackFits = true → s.stack = below ++ [b, a] → b ≠ 0#32 →
    ∃ r : Word, exec .mod s = .next { s with ip := s.ip + 1#32, stack := below ++ [r] } ∧
      a.toInt = b.toInt * a.toInt.tdiv b.toInt + r.toInt ∧ r.toInt.natAbs < b.toInt.natAbs ∧
      (r.toInt = 0 ∨ r.toInt.sign = a.toInt.sign)

/-- R90 (and §4.1's ordering rule), for SUB, GT and DIV on an unbounded stack: a program that pushes X, then Y, and runs
one of the three computes Y op X. The division is of operands with an exact quotient in range. SUB wraps by decision D4
(log entry 8), GT is signed by decision D14 (log entry 11). For MOD see `ModPushesTheRemainder`, for LT, GE and LE
`OrderComparisonsAreSigned`. -/
def Obligations.LastPushedOperandIsTheLeftOne : Prop :=
  ∀ (s : State) (x y : Word), s.stackCap = none →
    ∃ t u, exec (.pushConst x) s = .next t ∧ exec (.pushConst y) t = .next u ∧
      (∃ w, exec .sub u = .next w ∧ w.stack = s.stack ++ [y - x]) ∧
      (∃ w, exec .gt u = .next w ∧ w.stack = s.stack ++ [if x.toInt < y.toInt then 1#32 else 0#32]) ∧
      (x ≠ 0#32 → x ≠ -1#32 →
        ∃ w q, exec .div u = .next w ∧ w.stack = s.stack ++ [q] ∧ q.toInt = y.toInt.tdiv x.toInt)

/-! ## Comparison -/

/-- R100: EQ decodes from 0x40, pops two values and pushes 1 if they are equal, else 0; with fewer than two it raises
StackUnderflow (that the stack is then unchanged is decision D7). -/
def Obligations.EqPushesOneForEqualValues : Prop :=
  (∀ rest : List Byte, decode (0x40#8 :: rest) = .ok (.eq, rest)) ∧
  (∀ (s : State) (below : List Word) (b a : Word), s.stackFits = true → s.stack = below ++ [b, a] →
    exec .eq s = .next { s with ip := s.ip + 1#32, stack := below ++ [if a = b then 1#32 else 0#32] }) ∧
  ∀ s : State, s.stack.length < 2 → ∃ t, exec .eq s = .next t ∧ t.err = some .stackUnderflow

/-- R101 to R104 with R105 (decision D14, signed): the first popped value stands on the left, and the word pushed is 1
or 0. -/
def Obligations.OrderComparisonsAreSigned : Prop :=
  ∀ (s : State) (below : List Word) (b a : Word), s.stackFits = true → s.stack = below ++ [b, a] →
    exec .gt s =
      .next { s with ip := s.ip + 1#32, stack := below ++ [if a.toInt > b.toInt then 1#32 else 0#32] } ∧
    exec .lt s =
      .next { s with ip := s.ip + 1#32, stack := below ++ [if a.toInt < b.toInt then 1#32 else 0#32] } ∧
    exec .ge s =
      .next { s with ip := s.ip + 1#32, stack := below ++ [if a.toInt ≥ b.toInt then 1#32 else 0#32] } ∧
    exec .le s =
      .next { s with ip := s.ip + 1#32, stack := below ++ [if a.toInt ≤ b.toInt then 1#32 else 0#32] }

/-- R105 (decision D14): on the same operands GE is 1 - LT, LE is 1 - GT, and exactly one of LT, EQ and GT is 1. -/
def Obligations.ComparisonOutcomesExcludeEachOther : Prop :=
  ∀ (s : State) (below : List Word) (b a : Word), s.stackFits = true → s.stack = below ++ [b, a] →
    ∃ (te tg tl th tm : State) (e g l h m : Word),
      exec .eq s = .next te ∧ te.stack = below ++ [e] ∧ exec .gt s = .next tg ∧ tg.stack = below ++ [g] ∧
      exec .lt s = .next tl ∧ tl.stack = below ++ [l] ∧ exec .ge s = .next th ∧ th.stack = below ++ [h] ∧
      exec .le s = .next tm ∧ tm.stack = below ++ [m] ∧
      h = 1#32 - l ∧ m = 1#32 - g ∧
      ((l = 1#32 ∧ e = 0#32 ∧ g = 0#32) ∨ (l = 0#32 ∧ e = 1#32 ∧ g = 0#32) ∨ (l = 0#32 ∧ e = 0#32 ∧ g = 1#32))

/-! ## Faults -/

/-- R111: when an instruction raises StackUnderflow, in terms of the stack at entry; HALT, PUSH_CONST and LOAD_AT_DEPTH
never do. -/
def Obligations.StackUnderflowExactly : Prop :=
  pop [] = .error .stackUnderflow ∧
  ∀ (i : Instr) (s : State), s.err = none →
    ((∃ t, exec i s = .next t ∧ t.err = some .stackUnderflow) ↔
      match i with
      | .jump | .storeAtDepth _ => s.stack = []
      | .jumpIfZero | .add | .sub | .mul | .div | .mod | .eq | .gt | .lt | .ge | .le => s.stack.length < 2
      | .dropN n => 0 ≤ n.toInt ∧ (s.stack.length : Int) < n.toInt
      | .halt | .pushConst _ | .loadAtDepth _ => False)

/-- R112: when an instruction raises AddressOutOfRange: the depth is negative or not below the stack's length, at entry
for LOAD_AT_DEPTH and after the pop for STORE_AT_DEPTH. -/
def Obligations.AddressOutOfRangeExactly : Prop :=
  ∀ (i : Instr) (s : State), s.err = none →
    ((∃ t, exec i s = .next t ∧ t.err = some .addressOutOfRange) ↔
      match i with
      | .loadAtDepth d => d.toInt < 0 ∨ (s.stack.length : Int) ≤ d.toInt
      | .storeAtDepth d => s.stack ≠ [] ∧ (d.toInt < 0 ∨ (s.stack.length : Int) - 1 ≤ d.toInt)
      | .halt | .jump | .jumpIfZero | .pushConst _ | .dropN _ | .add | .sub | .mul | .div | .mod | .eq | .gt | .lt
      | .ge | .le => False)

/-- R113: a step raises MalformedProgram exactly for a truncated immediate and for DROP_N with a negative count. -/
def Obligations.MalformedProgramExactly : Prop :=
  ∀ (s : State) (op : Byte), s.progLen ≤ Config.maxProgLen → s.err = none → s.progRead s.ip.toNat = some op →
    ((∃ t, step s = .next t ∧ t.err = some .malformedProgram) ↔
      ((op = 0x10#8 ∨ op = 0x11#8 ∨ op = 0x20#8 ∨ op = 0x21#8) ∧ s.progLen < s.ip.toNat + 5) ∨
      (op = 0x21#8 ∧ s.ip.toNat + 5 ≤ s.progLen ∧
        ∃ b1 : Byte, s.progRead (s.ip.toNat + 1) = some b1 ∧ 128 ≤ b1.toNat))

/-- R98: DIV and MOD, and nothing else, raise DivideByZero, exactly when there are two operands and the second popped
one is 0; a first popped 0 over another divisor is no error and gives 0; with fewer than two elements the fault is
StackUnderflow, whatever the values. -/
def Obligations.DivideByZeroExactly : Prop :=
  (∀ (i : Instr) (s : State), s.err = none →
    ((∃ t, exec i s = .next t ∧ t.err = some .divideByZero) ↔
      (i = .div ∨ i = .mod) ∧ ∃ (below : List Word) (a : Word), s.stack = below ++ [0#32, a])) ∧
  ∀ (i : Instr) (s : State), i = .div ∨ i = .mod →
    (∀ (below : List Word) (b : Word), s.stackFits = true → s.stack = below ++ [b, 0#32] → b ≠ 0#32 →
      exec i s = .next { s with ip := s.ip + 1#32, stack := below ++ [0#32] }) ∧
    (s.stack.length < 2 → ∃ t, exec i s = .next t ∧ t.err = some .stackUnderflow)

/-- R115: a step raises UnknownOpcode exactly when the byte at `ip` is one of the 239 undefined ones, whatever follows
it. -/
def Obligations.UnknownOpcodeExactly : Prop :=
  ∀ (s : State) (op : Byte), s.progLen ≤ Config.maxProgLen → s.err = none → s.progRead s.ip.toNat = some op →
    (((0x03 ≤ op.toNat ∧ op.toNat ≤ 0x0F) ∨ (0x12 ≤ op.toNat ∧ op.toNat ≤ 0x1F) ∨ (0x22 ≤ op.toNat ∧ op.toNat ≤ 0x2F) ∨
      (0x35 ≤ op.toNat ∧ op.toNat ≤ 0x3F) ∨ 0x45 ≤ op.toNat) ↔
      ∃ t, step s = .next t ∧ t.err = some .unknownOpcode)

/-- R117 (decision D3): StackOverflow is raised by PUSH_CONST and by LOAD_AT_DEPTH of a depth in range, exactly when the
stack is at its capacity; never by another instruction, if the stack fits its capacity. -/
def Obligations.StackOverflowExactly : Prop :=
  ∀ (i : Instr) (s : State), s.err = none → s.stackFits = true →
    ((∃ t, exec i s = .next t ∧ t.err = some .stackOverflow) ↔
      s.stackCap = some s.stack.length ∧
        ((∃ v, i = .pushConst v) ∨ ∃ d, i = .loadAtDepth d ∧ 0 ≤ d.toInt ∧ d.toInt < s.stack.length))

/-- R120, R122 (decisions D6, D7): a step that raises a fault changes nothing but `err`. -/
def Obligations.FaultingStepChangesOnlyErr : Prop :=
  ∀ (s t : State) (k : FaultKind), s.err = none → step s = .next t → t.err = some k → t = { s with err := some k }

/-- R121 (decision D6): after a fault, any number of steps leaves the machine as it is, and it is never at a successful
end. -/
def Obligations.FaultedMachineStaysFaulted : Prop :=
  ∀ (s : State) (k : FaultKind), s.progLen ≤ Config.maxProgLen → s.err = some k →
    (∀ n, Sys2Proof.core.run n s = .next s) ∧ s.status = .faulted k ∧ s.result = .invalid k ∧ s.endedWell = false

/-- R119's table of tests, read as which fault can come from which instruction (a derived rule). -/
def Obligations.FaultsRaisedByEachInstruction : Prop :=
  ∀ (i : Instr) (s t : State) (k : FaultKind), s.err = none → s.stackFits = true →
    exec i s = .next t → t.err = some k →
    match i with
    | .halt => False
    | .jump | .jumpIfZero | .add | .sub | .mul | .eq | .gt | .lt | .ge | .le => k = .stackUnderflow
    | .pushConst _ => k = .stackOverflow
    | .loadAtDepth _ => k = .addressOutOfRange ∨ k = .stackOverflow
    | .storeAtDepth _ => k = .stackUnderflow ∨ k = .addressOutOfRange
    | .dropN _ => k = .malformedProgram ∨ k = .stackUnderflow
    | .div | .mod => k = .stackUnderflow ∨ k = .divideByZero

/-! ## Invariants -/

/-- The reset state meets the machine's invariant (it holds no program, log entry 3). -/
def Obligations.ResetStateMeetsTheInvariant : Prop := State.reset.inv = true

/-- R10, R15, R2, R118: every step from a state that meets the invariant gives one that does: canonical program memory
below `L`, an admitted length, a stack within its capacity, and a fault that leaves `ip` at an opcode byte (decision D7).
-/
def Obligations.StepKeepsTheInvariant : Prop :=
  ∀ s t : State, s.inv = true → step s = .next t → t.inv = true

/-- R130, R142, R31: a constructed machine meets the invariant, is in its reset values, and its program space holds the
image and nothing beyond it. -/
def Obligations.ConstructedMachineHoldsTheImage : Prop :=
  ∀ (cap : Option Nat) (image : List Byte), image.length ≤ Config.maxProgLen →
    ∃ s, construct cap image = .ok s ∧ s.inv = true ∧ s.ip = 0#32 ∧ s.stack = [] ∧ s.err = none ∧
      s.progLen = image.length ∧ s.stackCap = cap ∧ ∀ a, s.progRead a = image[a]?

/-- R140, R141 (decision D11): reset applied in any state gives the reset values, leaves the program, `L` and the
capacity alone, forgets the rest, and keeps the invariant. -/
def Obligations.ResetGivesTheResetValues : Prop :=
  ∀ s t : State, s.applyReset.ip = 0#32 ∧ s.applyReset.stack = [] ∧ s.applyReset.err = none ∧
    (∀ a, s.applyReset.progRead a = s.progRead a) ∧ (s.inv = true → s.applyReset.inv = true) ∧
    (s.prog = t.prog → s.progLen = t.progLen → s.stackCap = t.stackCap → s.applyReset = t.applyReset)

/-- R141: after reset `ip` is 0, the stack is empty and there is no fault. -/
def Obligations.StateAfterReset : Prop :=
  State.reset.ip = 0#32 ∧ State.reset.stack.length = 0 ∧ State.reset.err = none ∧
    ∀ (cap : Option Nat) (image : List Byte) (s : State), construct cap image = .ok s →
      s.ip = 0#32 ∧ s.stack.length = 0 ∧ s.err = none

/-- R13, R76: a completed instruction that is not HALT, JUMP or JUMP_IF_ZERO leaves `ip` at the byte after itself, with
no wrap, and never beyond `L`. -/
def Obligations.SequentialInstructionsAdvanceIp : Prop :=
  ∀ (s t : State) (i : Instr), s.progLen ≤ Config.maxProgLen → s.status = .running → s.fetchInstr = .instr i →
    i ≠ .halt → i ≠ .jump → i ≠ .jumpIfZero → step s = .next t → t.err = none →
    t.ip.toNat = s.ip.toNat + i.length ∧ t.ip.toNat ≤ s.progLen

/-- R14: `ip <= L` holds at reset, with no program and with any program loaded, and is kept by every step except a JUMP
or taken JUMP_IF_ZERO whose target is larger than `L`; `ip` decreases only by a JUMP or JUMP_IF_ZERO; and a target equal to
`L` is taken like any other. That `ip` above `L` is then the target's pattern read as unsigned is more than R14 says: it
is the spec's decision D1 (log entry 10). -/
def Obligations.IpLeavesTheProgramOnlyByJumps : Prop :=
  (State.reset.ip.toNat ≤ State.reset.progLen ∧
    ∀ (cap : Option Nat) (image : List Byte) (s : State), construct cap image = .ok s → s.ip.toNat ≤ s.progLen) ∧
  (∀ s t : State, s.ip.toNat ≤ s.progLen → step s = .next t →
    t.ip.toNat ≤ t.progLen ∨
      ((s.fetchInstr = .instr .jump ∨ s.fetchInstr = .instr .jumpIfZero) ∧
        ∃ target : Word, s.stack.getLast? = some target ∧ s.progLen < target.toNat ∧ t.ip.toNat = target.toNat)) ∧
  (∀ s t : State, step s = .next t → t.ip.toNat < s.ip.toNat →
    s.fetchInstr = .instr .jump ∨ s.fetchInstr = .instr .jumpIfZero) ∧
  ∀ (s : State) (below : List Word) (target : Word), s.progLen ≤ Config.maxProgLen → s.err = none →
    s.stack = below ++ [target] → target.toNat = s.progLen →
    ∃ t, exec .jump s = .next t ∧ t.ip.toNat = t.progLen ∧ t.status = .halted ∧ step t = .next t

/-! ## Frames -/

/-- R43, R31: the program is never written. After any number of steps every address reads as it did. -/
def Obligations.ProgramIsNeverWritten : Prop :=
  ∀ (n : Nat) (s t : State), Sys2Proof.core.run n s = .next t →
    t.prog = s.prog ∧ t.progLen = s.progLen ∧ t.stackCap = s.stackCap ∧ ∀ a, t.progRead a = s.progRead a

/-- The frame of the register part, for all 17 instructions (R18, R21, R22, R118): `err` is unchanged unless a fault is
raised, and then `ip` and the stack are (decision D7); the program, `L` and the capacity always are. -/
def Obligations.InstructionsWriteOnlyIpStackAndErr : Prop :=
  ∀ (i : Instr) (s t : State), exec i s = .next t →
    t = { s with ip := t.ip, stack := t.stack } ∨ ∃ k, t = { s with err := some k }

/-- The frame of the stack, for all 17 instructions (R16, R32, R84): an element below the popped ones reads as before,
but for the one that STORE_AT_DEPTH writes, whose index is computed by the same function as its meaning computes it,
from the length after the pop; that one then holds the popped value. -/
def Obligations.ElementsBelowTheOperandsStay : Prop :=
  ∀ (i : Instr) (s t : State), s.err = none → exec i s = .next t → t.err = none →
    let n := s.stack.length
    let kept : Nat :=
      match i with
      | .halt | .pushConst _ | .loadAtDepth _ => n
      | .jump | .storeAtDepth _ => n - 1
      | .dropN c => n - c.toInt.toNat
      | .jumpIfZero | .add | .sub | .mul | .div | .mod | .eq | .gt | .lt | .ge | .le => n - 2
    let pushed : Nat :=
      match i with
      | .halt | .jump | .jumpIfZero | .storeAtDepth _ | .dropN _ => 0
      | .pushConst _ | .loadAtDepth _ | .add | .sub | .mul | .div | .mod | .eq | .gt | .lt | .ge | .le => 1
    t.stack.length = kept + pushed ∧
    ∀ k, k < kept →
      t.stack[k]? =
        match i with
        | .storeAtDepth d => if (k : Int) = depthIndex (n - 1) d then s.stack.getLast? else s.stack[k]?
        | .halt | .jump | .jumpIfZero | .pushConst _ | .loadAtDepth _ | .dropN _ | .add | .sub | .mul | .div | .mod
        | .eq | .gt | .lt | .ge | .le => s.stack[k]?

/-! ## Ports and runs -/

/-- R19: the three values of the status, each exactly when. -/
def Obligations.StatusIsDecidedByErrAndIp : Prop :=
  ∀ s : State, (∀ k, s.status = .faulted k ↔ s.err = some k) ∧
    (s.status = .halted ↔ s.err = none ∧ s.progLen ≤ s.ip.toNat) ∧
    (s.status = .running ↔ s.err = none ∧ s.ip.toNat < s.progLen)

/-- R20 (decision D10): what the result port reads, and when it is final. -/
def Obligations.ResultPortReadsTheTop : Prop :=
  ∀ s : State, (∀ k, s.err = some k → s.result = .invalid k ∧ s.final = false) ∧
    (s.err = none → s.stack = [] → s.result = .emptyResult) ∧
    (∀ (below : List Word) (v : Word), s.err = none → s.stack = below ++ [v] → s.result = .value v) ∧
    (s.final = true ↔ s.status = .halted)

/-- R110, R18 (decision D8): the codes of `err.kind`; the code of `EmptyResult` is never held, and different latches
have different codes. -/
def Obligations.FaultCodesAreThoseOfTheList : Prop :=
  faultCode .stackUnderflow = 1#3 ∧ faultCode .addressOutOfRange = 2#3 ∧ faultCode .malformedProgram = 3#3 ∧
  faultCode .divideByZero = 4#3 ∧ faultCode .unknownOpcode = 5#3 ∧ faultCode .stackOverflow = 7#3 ∧
  (∀ s : State, s.errKind ≠ emptyResultCode ∧ (s.errKind = 0#3 ↔ s.err = none)) ∧
  ∀ s t : State, s.errKind = t.errKind → s.err = t.err

/-- R71, R131: a bounded run that ends does so in the first state whose status is not Running, and a larger bound gives
the same end. -/
def Obligations.RunEndsAtTheFirstStateNotRunning : Prop :=
  ∀ (n : Nat) (s t : State), run n s = .ended t →
    (∃ k, k ≤ n ∧ Sys2Proof.core.run k s = .next t ∧ t.status ≠ .running ∧
      ∀ (j : Nat) (u : State), j < k → Sys2Proof.core.run j s = .next u → u.status = .running) ∧
    ∀ m, n ≤ m → run m s = .ended t

/-- The model's own loader function of the host's interface (log entry 17): the instruction placed is the one that the
next step runs. -/
def Obligations.PlacedInstructionRunsNext : Prop :=
  ∀ (s : State) (nbits w : Nat) (i : Instr), Memory.wf s.prog = true → decodeTableWord nbits w = some i →
    step (s.withFetchWord nbits w) = exec i (s.withFetchWord nbits w)
end

