-- ==== Sys2Proof/Laws/Decode.lean ====
section
/-!
SUPPORT. The immediate's bytes, and what the opcode map selects (spec/30_encoding.md R50 to R57).
-/

namespace Sys2Proof

@[simp] theorem immBytes_length (v : Word) : (immBytes v).length = 4 := rfl

/-- The pattern of an assembled immediate is the big-endian number of its bytes (R33). -/
theorem assembleImm_toNat (b1 b2 b3 b4 : Byte) :
    (assembleImm b1 b2 b3 b4).toNat = b1.toNat * 2 ^ 24 + b2.toNat * 2 ^ 16 + b3.toNat * 2 ^ 8 + b4.toNat := by
  have h1 := b1.isLt
  have h2 := b2.isLt
  have h3 := b3.isLt
  have h4 := b4.isLt
  simp only [assembleImm, BitVec.toNat_ofNat]
  omega

/-- Assembling an immediate's bytes gives the immediate back. -/
theorem assembleImm_bytes (v : Word) :
    assembleImm (BitVec.ofNat 8 (v.toNat / 2 ^ 24)) (BitVec.ofNat 8 (v.toNat / 2 ^ 16))
      (BitVec.ofNat 8 (v.toNat / 2 ^ 8)) (BitVec.ofNat 8 v.toNat) = v := by
  apply BitVec.eq_of_toNat_eq
  have h := v.isLt
  simp only [assembleImm_toNat, BitVec.toNat_ofNat]
  omega

/-- The bytes of an assembled immediate are the bytes it was assembled from. -/
theorem immBytes_assembleImm (b1 b2 b3 b4 : Byte) : immBytes (assembleImm b1 b2 b3 b4) = [b1, b2, b3, b4] := by
  have h1 := b1.isLt
  have h2 := b2.isLt
  have h3 := b3.isLt
  have h4 := b4.isLt
  simp only [immBytes, assembleImm_toNat, List.cons.injEq, and_true]
  refine ⟨?_, ?_, ?_, ?_⟩ <;> apply BitVec.eq_of_toNat_eq <;> simp only [BitVec.toNat_ofNat] <;> omega

/-- The 17 bytes that select something, each with what it selects, and no other (R55, R56). -/
theorem selectOpcode_cases {b : Byte} {f : Form} (h : selectOpcode b = some f) :
    (b = 0x00#8 ∧ f = .op .halt) ∨ (b = 0x01#8 ∧ f = .op .jump) ∨ (b = 0x02#8 ∧ f = .op .jumpIfZero) ∨
      (b = 0x10#8 ∧ f = .opi .pushConst) ∨ (b = 0x11#8 ∧ f = .opi .loadAtDepth) ∨
      (b = 0x20#8 ∧ f = .opi .storeAtDepth) ∨ (b = 0x21#8 ∧ f = .opi .dropN) ∨
      (b = 0x30#8 ∧ f = .op .add) ∨ (b = 0x31#8 ∧ f = .op .sub) ∨ (b = 0x32#8 ∧ f = .op .mul) ∨
      (b = 0x33#8 ∧ f = .op .div) ∨ (b = 0x34#8 ∧ f = .op .mod) ∨
      (b = 0x40#8 ∧ f = .op .eq) ∨ (b = 0x41#8 ∧ f = .op .gt) ∨ (b = 0x42#8 ∧ f = .op .lt) ∨
      (b = 0x43#8 ∧ f = .op .ge) ∨ (b = 0x44#8 ∧ f = .op .le) := by
  unfold selectOpcode at h
  split at h <;> simp only [Option.some.injEq, reduceCtorEq] at h <;> subst h <;> simp

end Sys2Proof
end

