-- ==== Sys2Proof/Laws/Memory.lean ====
section
/-!
SUPPORT. Program memory: a read after a write, and the canonical form, which every memory operation keeps.
-/

namespace Sys2Proof.Machine

theorem Memory.wf_cons {x : Nat} {b : Byte} {m : List Host.Cell} :
    Memory.wf ((x, b) :: m) = true ↔ b ≠ Memory.unlisted ∧ (∀ c ∈ m, x < c.1) ∧ Memory.wf m = true := by
  simp [Memory.wf, and_assoc]

/-- An address below every cell reads as an unlisted one. -/
theorem Memory.read_of_lt {m : List Host.Cell} {a : Nat} (h : ∀ c ∈ m, a < c.1) : Memory.read m a = Memory.unlisted := by
  induction m with
  | nil => rfl
  | cons c m ih =>
    obtain ⟨x, b⟩ := c
    have hx : a < x := h (x, b) (by simp)
    simp only [Memory.read, if_neg (Nat.ne_of_gt hx)]
    exact ih fun c hc => h c (by simp [hc])

/-- Every cell of a written memory is an old one or the written one. -/
theorem Memory.mem_write {m : List Host.Cell} {a : Nat} {v : Byte} {c : Host.Cell}
    (h : c ∈ Memory.write m a v) : c = (a, v) ∨ c ∈ m := by
  induction m with
  | nil =>
    simp only [Memory.write] at h
    split at h <;> simp_all
  | cons d m ih =>
    obtain ⟨x, b⟩ := d
    simp only [Memory.write] at h
    split at h
    · rcases List.mem_cons.1 h with h | h
      · exact .inr (by simp [h])
      · exact (ih h).imp_right (by simp_all)
    · split at h <;> split at h <;> (simp_all; try tauto)

/-- A write keeps the canonical form. -/
theorem Memory.write_wf {m : List Host.Cell} (a : Nat) (v : Byte) (h : Memory.wf m = true) :
    Memory.wf (Memory.write m a v) = true := by
  induction m with
  | nil => by_cases hv : v = Memory.unlisted <;> simp [Memory.write, Memory.wf, hv]
  | cons d m ih =>
    obtain ⟨x, b⟩ := d
    obtain ⟨hb, hx, hm⟩ := Memory.wf_cons.1 h
    by_cases hxa : x < a
    · simp only [Memory.write, if_pos hxa]
      refine Memory.wf_cons.2 ⟨hb, fun c hc => ?_, ih hm⟩
      rcases Memory.mem_write hc with rfl | hc
      · exact hxa
      · exact hx c hc
    · by_cases he : x = a
      · subst he
        by_cases hv : v = Memory.unlisted
        · simpa [Memory.write, hv] using hm
        · simpa [Memory.write, hv, Memory.wf_cons, hm] using fun c y hc => hx (c, y) hc
      · by_cases hv : v = Memory.unlisted
        · simpa [Memory.write, hxa, he, hv] using h
        · have hlt : a < x := by omega
          simp only [Memory.write, if_neg hxa, if_neg he, if_neg hv]
          refine Memory.wf_cons.2 ⟨hv, fun c hc => ?_, h⟩
          rcases List.mem_cons.1 hc with rfl | hc
          · exact hlt
          · exact Nat.lt_trans hlt (hx c hc)

/-- A read after a write gives the byte written at its address and leaves every other address alone. -/
theorem Memory.read_write {m : List Host.Cell} (a : Nat) (v : Byte) (y : Nat) (h : Memory.wf m = true) :
    Memory.read (Memory.write m a v) y = if y = a then v else Memory.read m y := by
  induction m with
  | nil =>
    by_cases hv : v = Memory.unlisted <;> simp [Memory.write, Memory.read, hv, eq_comm]
  | cons d m ih =>
    obtain ⟨x, b⟩ := d
    obtain ⟨hb, hx, hm⟩ := Memory.wf_cons.1 h
    by_cases hxa : x < a
    · simp only [Memory.write, if_pos hxa, Memory.read, ih hm]
      by_cases hy : x = y
      · subst hy
        simp [Nat.ne_of_lt hxa]
      · simp [hy]
    · by_cases he : x = a
      · subst he
        have hr := Memory.read_of_lt hx
        by_cases hv : v = Memory.unlisted
        · by_cases hy : y = x
          · subst hy; simp [Memory.write, hv, hr]
          · simp [Memory.write, hv, hy, Memory.read, Ne.symm hy]
        · by_cases hy : y = x
          · subst hy; simp [Memory.write, hv, Memory.read]
          · simp [Memory.write, hv, hy, Memory.read, Ne.symm hy]
      · have hr : Memory.read ((x, b) :: m) a = Memory.unlisted := by
          apply Memory.read_of_lt
          intro c hc
          rcases List.mem_cons.1 hc with rfl | hc
          · show a < x; omega
          · have := hx c hc; omega
        by_cases hv : v = Memory.unlisted
        · by_cases hy : y = a
          · subst hy; simp [Memory.write, hxa, he, hv, hr]
          · simp [Memory.write, hxa, he, hv, hy]
        · by_cases hy : y = a
          · subst hy; simp [Memory.write, hxa, he, hv, Memory.read]
          · simp [Memory.write, hxa, he, hv, hy, Memory.read, Ne.symm hy]

/-- Writing many bytes keeps the canonical form. -/
theorem Memory.writeBytes_wf (bytes : List Byte) {m : List Host.Cell} (a : Nat) (h : Memory.wf m = true) :
    Memory.wf (Memory.writeBytes m a bytes) = true := by
  induction bytes generalizing m a with
  | nil => exact h
  | cons v vs ih => exact ih (a + 1) (Memory.write_wf a v h)

/-- A read after many writes. -/
theorem Memory.read_writeBytes (bytes : List Byte) {m : List Host.Cell} (a y : Nat) (h : Memory.wf m = true) :
    Memory.read (Memory.writeBytes m a bytes) y =
      if a ≤ y ∧ y < a + bytes.length then bytes[y - a]?.getD Memory.unlisted else Memory.read m y := by
  induction bytes generalizing m a with
  | nil => simp [Memory.writeBytes]
  | cons v vs ih =>
    simp only [Memory.writeBytes, ih (a + 1) (Memory.write_wf a v h), Memory.read_write a v y h, List.length_cons]
    by_cases hy : y = a
    · subst hy; simp
    · by_cases hin : a ≤ y ∧ y < a + (vs.length + 1)
      · have h1 : a + 1 ≤ y ∧ y < a + 1 + vs.length := by omega
        obtain ⟨k, rfl⟩ : ∃ k, y = a + 1 + k := ⟨y - (a + 1), by omega⟩
        have h2 : a + 1 + k - a = k + 1 := by omega
        simp [h1, hin, h2]
      · have h1 : ¬(a + 1 ≤ y ∧ y < a + 1 + vs.length) := by omega
        rw [if_neg h1, if_neg hin, if_neg hy]

/-- Every cell stays below a length that covers the written addresses. -/
theorem Memory.writeBytes_below (bytes : List Byte) {m : List Host.Cell} (a : Nat) {len : Nat}
    (h : Memory.below m len = true) (hlen : a + bytes.length ≤ len) :
    Memory.below (Memory.writeBytes m a bytes) len = true := by
  induction bytes generalizing m a with
  | nil => exact h
  | cons v vs ih =>
    simp only [List.length_cons] at hlen
    refine ih (a + 1) ?_ (by omega)
    simp only [Memory.below, List.all_eq_true, decide_eq_true_eq] at h ⊢
    intro c hc
    rcases Memory.mem_write hc with rfl | hc
    · show a < len; omega
    · exact h c hc

/-- `State.reset`'s memory is in the canonical form. -/
theorem Memory.reset_wf : Memory.wf State.reset.prog = true := rfl

end Sys2Proof.Machine
end

