-- ==== Sys2Proof/Laws/State.lean ====
section
/-!
SUPPORT. What each update of the state leaves in each field, so that no proof unfolds a record update.
-/

namespace Sys2Proof.Machine

@[simp] theorem State.raise_ip (s : State) (k : FaultKind) : (s.raise k).ip = s.ip := rfl
@[simp] theorem State.raise_stack (s : State) (k : FaultKind) : (s.raise k).stack = s.stack := rfl
@[simp] theorem State.raise_err (s : State) (k : FaultKind) : (s.raise k).err = some k := rfl
@[simp] theorem State.raise_prog (s : State) (k : FaultKind) : (s.raise k).prog = s.prog := rfl
@[simp] theorem State.raise_progLen (s : State) (k : FaultKind) : (s.raise k).progLen = s.progLen := rfl
@[simp] theorem State.raise_stackCap (s : State) (k : FaultKind) : (s.raise k).stackCap = s.stackCap := rfl

@[simp] theorem State.moveTo_ip (s : State) (ip : BitVec 32) (st : List Word) : (s.moveTo ip st).ip = ip := rfl
@[simp] theorem State.moveTo_stack (s : State) (ip : BitVec 32) (st : List Word) : (s.moveTo ip st).stack = st := rfl
@[simp] theorem State.moveTo_err (s : State) (ip : BitVec 32) (st : List Word) : (s.moveTo ip st).err = s.err := rfl
@[simp] theorem State.moveTo_prog (s : State) (ip : BitVec 32) (st : List Word) : (s.moveTo ip st).prog = s.prog := rfl
@[simp] theorem State.moveTo_progLen (s : State) (ip : BitVec 32) (st : List Word) :
    (s.moveTo ip st).progLen = s.progLen := rfl
@[simp] theorem State.moveTo_stackCap (s : State) (ip : BitVec 32) (st : List Word) :
    (s.moveTo ip st).stackCap = s.stackCap := rfl

@[simp] theorem State.applyReset_ip (s : State) : s.applyReset.ip = 0#32 := rfl
@[simp] theorem State.applyReset_stack (s : State) : s.applyReset.stack = [] := rfl
@[simp] theorem State.applyReset_err (s : State) : s.applyReset.err = none := rfl
@[simp] theorem State.applyReset_prog (s : State) : s.applyReset.prog = s.prog := rfl
@[simp] theorem State.applyReset_progLen (s : State) : s.applyReset.progLen = s.progLen := rfl
@[simp] theorem State.applyReset_stackCap (s : State) : s.applyReset.stackCap = s.stackCap := rfl

end Sys2Proof.Machine
end

