-- ==== Sys2Proof/Laws/Ops.lean ====
section
/-!
SUPPORT. One lemma for each shared operation that says everything it can do: pop and push (spec/10_state.md R15), depth
addressing (spec/41_stack.md R84), dropping (R83), the two-operand template (spec/42_arith.md R90), and the end of an
instruction (spec/60_exceptions.md R120).
-/

namespace Sys2Proof.Machine

@[simp] theorem except_bind_ok {α β : Type} (a : α) (f : α → Except FaultKind β) :
    ((Except.ok a : Except FaultKind α) >>= f) = f a := rfl

@[simp] theorem except_bind_error {α β : Type} (k : FaultKind) (f : α → Except FaultKind β) :
    ((Except.error k : Except FaultKind α) >>= f) = .error k := rfl

@[simp] theorem pop_nil : pop [] = .error .stackUnderflow := rfl

@[simp] theorem pop_concat (st : List Word) (v : Word) : pop (st ++ [v]) = .ok (v, st) := by simp [pop]

/-- A pop gives the top and the rest, or finds the stack empty (R15). -/
theorem pop_cases (st : List Word) :
    (st = [] ∧ pop st = .error .stackUnderflow) ∨ ∃ below v, st = below ++ [v] ∧ pop st = .ok (v, below) := by
  rcases List.eq_nil_or_concat st with rfl | ⟨below, v, rfl⟩
  · exact .inl ⟨rfl, rfl⟩
  · exact .inr ⟨below, v, by simp⟩

theorem push_ok {cap : Option Nat} {v : Word} {st : List Word} (h : cap ≠ some st.length) :
    push cap v st = .ok (st ++ [v]) := by simp [push, h]

theorem push_full (v : Word) (st : List Word) : push (some st.length) v st = .error .stackOverflow := by
  simp [push]

/-- A push appends, or finds the stack at its capacity (R15). -/
theorem push_cases (cap : Option Nat) (v : Word) (st : List Word) :
    (cap = some st.length ∧ push cap v st = .error .stackOverflow) ∨
      (cap ≠ some st.length ∧ push cap v st = .ok (st ++ [v])) := by
  by_cases h : cap = some st.length <;> simp [push, h]

/-- The depth is in range exactly when `0 <= d <= n - 1`, and then it counts from the top (R84). -/
theorem depthIndex_in_range {n : Nat} {d : Word} :
    (¬(depthIndex n d < 0 ∨ (n : Int) ≤ depthIndex n d)) ↔ 0 ≤ d.toInt ∧ d.toInt < n := by
  unfold depthIndex; omega

theorem depthIndex_toNat {n : Nat} {d : Word} (h0 : 0 ≤ d.toInt) (h : d.toInt < n) :
    (depthIndex n d).toNat = n - 1 - d.toInt.toNat ∧ (depthIndex n d).toNat < n := by
  unfold depthIndex; omega

theorem readDepth_out {st : List Word} {d : Word} (h : d.toInt < 0 ∨ (st.length : Int) ≤ d.toInt) :
    readDepth st d = .error .addressOutOfRange := by
  have hi : depthIndex st.length d < 0 ∨ (st.length : Int) ≤ depthIndex st.length d := by unfold depthIndex; omega
  simp [readDepth, hi]

theorem readDepth_in {st : List Word} {d : Word} (h0 : 0 ≤ d.toInt) (h : d.toInt < st.length) :
    ∃ v, st[(depthIndex st.length d).toNat]? = some v ∧ readDepth st d = .ok v := by
  have hlt := (depthIndex_toNat h0 h).2
  refine ⟨st[(depthIndex st.length d).toNat], by simp [hlt], ?_⟩
  have hi := depthIndex_in_range.2 ⟨h0, h⟩
  simp [readDepth, if_neg hi, hlt]

/-- A depth read gives the element at its index, or the index is out of range (R84). -/
theorem readDepth_cases (st : List Word) (d : Word) :
    ((d.toInt < 0 ∨ (st.length : Int) ≤ d.toInt) ∧ readDepth st d = .error .addressOutOfRange) ∨
      (0 ≤ d.toInt ∧ d.toInt < st.length ∧
        ∃ v, st[(depthIndex st.length d).toNat]? = some v ∧ readDepth st d = .ok v) := by
  by_cases h : d.toInt < 0 ∨ (st.length : Int) ≤ d.toInt
  · exact .inl ⟨h, readDepth_out h⟩
  · exact .inr ⟨by omega, by omega, readDepth_in (by omega) (by omega)⟩

/-- A depth write replaces the element at its index, or the index is out of range (R84). -/
theorem writeDepth_cases (st : List Word) (d : Word) (v : Word) :
    ((d.toInt < 0 ∨ (st.length : Int) ≤ d.toInt) ∧ writeDepth st d v = .error .addressOutOfRange) ∨
      (0 ≤ d.toInt ∧ d.toInt < st.length ∧ writeDepth st d v = .ok (st.set (depthIndex st.length d).toNat v)) := by
  by_cases h : d.toInt < 0 ∨ (st.length : Int) ≤ d.toInt
  · have hi : depthIndex st.length d < 0 ∨ (st.length : Int) ≤ depthIndex st.length d := by unfold depthIndex; omega
    exact .inl ⟨h, by simp [writeDepth, hi]⟩
  · have hi := (depthIndex_in_range (n := st.length) (d := d)).2 (by omega)
    exact .inr ⟨by omega, by omega, by simp [writeDepth, if_neg hi]⟩

/-- Dropping keeps the lowest elements, or there are too few (R83). -/
theorem dropTop_cases (n : Nat) (st : List Word) :
    (st.length < n ∧ dropTop n st = .error .stackUnderflow) ∨
      (n ≤ st.length ∧ dropTop n st = .ok (st.take (st.length - n))) := by
  by_cases h : st.length < n
  · exact .inl ⟨h, by simp [dropTop, h]⟩
  · exact .inr ⟨by omega, by simp [dropTop, h]⟩

/-- R83's first form of dropping: `n` pops in a row. -/
def popMany : Nat → List Word → Except FaultKind (List Word)
  | 0, st => .ok st
  | n + 1, st => do
    let (_, st) ← pop st
    popMany n st

/-- The two forms of R83 are equal. -/
theorem popMany_eq_dropTop (n : Nat) (st : List Word) : popMany n st = dropTop n st := by
  induction n generalizing st with
  | zero => simp [popMany, dropTop]
  | succ n ih =>
    rcases pop_cases st with ⟨rfl, hp⟩ | ⟨below, v, rfl, hp⟩
    · simp [popMany, dropTop]
    · simp only [popMany, hp, except_bind_ok, ih]
      by_cases h : below.length < n
      · simp [dropTop, h]
      · have h2 : below.length - n ≤ below.length := by omega
        simp [dropTop, h, List.take_append_of_le_length h2]

/-- The template on a stack `[.., b, a]`: `a`, on top, is the left operand (R90). -/
theorem twoOperand_concat {s : State} {below : List Word} {a b : Word} (f : Word → Word → Except FaultKind Word)
    (h : s.stack = below ++ [b, a]) :
    twoOperand s f = (f a b >>= fun v => push s.stackCap v below >>= fun st => .ok (s.afterOp, st)) := by
  have h' : s.stack = (below ++ [b]) ++ [a] := by simp [h]
  simp only [twoOperand, h', pop_concat, except_bind_ok]
  rfl

/-- The template on a stack with fewer than two elements (R90, R111). -/
theorem twoOperand_short {s : State} (f : Word → Word → Except FaultKind Word) (h : s.stack.length < 2) :
    twoOperand s f = .error .stackUnderflow := by
  rcases pop_cases s.stack with ⟨_, hp⟩ | ⟨below, v, hs, hp⟩
  · simp [twoOperand, hp]
  · have : below = [] := by
      rw [hs] at h
      simpa using h
    simp [twoOperand, hp, this]

/-- A stack of two or more elements has the template's two operands. -/
theorem exists_two_operands {st : List Word} (h : 2 ≤ st.length) : ∃ below b a, st = below ++ [b, a] := by
  rcases List.eq_nil_or_concat st with rfl | ⟨st', a, rfl⟩
  · simp at h
  · rcases List.eq_nil_or_concat st' with rfl | ⟨below, b, rfl⟩
    · simp at h
    · exact ⟨below, b, a, by simp⟩

/-- The template's outcomes: too few operands, a failed check on the values, a full stack, or the result pushed (R90). -/
theorem twoOperand_cases (s : State) (f : Word → Word → Except FaultKind Word) :
    (s.stack.length < 2 ∧ twoOperand s f = .error .stackUnderflow) ∨
      ∃ below b a, s.stack = below ++ [b, a] ∧
        ((∃ k, f a b = .error k ∧ twoOperand s f = .error k) ∨
          ∃ v, f a b = .ok v ∧
            ((s.stackCap = some below.length ∧ twoOperand s f = .error .stackOverflow) ∨
              (s.stackCap ≠ some below.length ∧ twoOperand s f = .ok (s.afterOp, below ++ [v])))) := by
  by_cases h : s.stack.length < 2
  · exact .inl ⟨h, twoOperand_short f h⟩
  · obtain ⟨below, b, a, hs⟩ := exists_two_operands (Nat.le_of_not_lt h)
    refine .inr ⟨below, b, a, hs, ?_⟩
    rw [twoOperand_concat f hs]
    cases hf : f a b with
    | error k => exact .inl ⟨k, rfl, rfl⟩
    | ok v =>
      refine .inr ⟨v, rfl, ?_⟩
      rcases push_cases s.stackCap v below with ⟨hc, hp⟩ | ⟨hc, hp⟩
      · exact .inl ⟨hc, by simp [hp]⟩
      · exact .inr ⟨hc, by simp [hp]⟩

@[simp] theorem State.commit_ok (s : State) (ip : BitVec 32) (st : List Word) :
    s.commit (.ok (ip, st)) = .next (s.moveTo ip st) := rfl

@[simp] theorem State.commit_error (s : State) (k : FaultKind) : s.commit (.error k) = .next (s.raise k) := rfl

/-- An instruction ends in its writes or in one fault, and in nothing else (R120). -/
theorem State.commit_cases (s : State) (r : Except FaultKind (BitVec 32 × List Word)) :
    (∃ ip st, r = .ok (ip, st) ∧ s.commit r = .next (s.moveTo ip st)) ∨
      ∃ k, r = .error k ∧ s.commit r = .next (s.raise k) := by
  rcases r with k | ⟨ip, st⟩
  · exact .inr ⟨k, rfl, rfl⟩
  · exact .inl ⟨ip, st, rfl, rfl⟩

/-- What an instruction computes before it ends: every meaning is `State.commit` of this. -/
def effect (i : Instr) (s : State) : Except FaultKind (BitVec 32 × List Word) :=
  match i with
  | .halt => .ok (BitVec.ofNat 32 s.progLen, s.stack)
  | .jump => do
    let (target, st) ← pop s.stack
    return (target, st)
  | .jumpIfZero => do
    let (target, st) ← pop s.stack
    let (cond, st) ← pop st
    return (if isZero cond then target else s.afterOp, st)
  | .pushConst v => do
    let st ← push s.stackCap v s.stack
    return (s.afterOpi, st)
  | .loadAtDepth d => do
    let v ← readDepth s.stack d
    let st ← push s.stackCap v s.stack
    return (s.afterOpi, st)
  | .storeAtDepth d => do
    let (value, st) ← pop s.stack
    let st ← writeDepth st d value
    return (s.afterOpi, st)
  | .dropN n => do
    if n.toInt < 0 then throw .malformedProgram
    let st ← dropTop n.toInt.toNat s.stack
    return (s.afterOpi, st)
  | .add => twoOperand s fun a b => .ok (addWord a b)
  | .sub => twoOperand s fun a b => .ok (subWord a b)
  | .mul => twoOperand s fun a b => .ok (mulWord a b)
  | .div => twoOperand s divWord
  | .mod => twoOperand s modWord
  | .eq => twoOperand s fun a b => .ok (truthWord (decide (a.toInt = b.toInt)))
  | .gt => twoOperand s fun a b => .ok (truthWord (decide (b.toInt < a.toInt)))
  | .lt => twoOperand s fun a b => .ok (truthWord (decide (a.toInt < b.toInt)))
  | .ge => twoOperand s fun a b => .ok (truthWord (decide (b.toInt ≤ a.toInt)))
  | .le => twoOperand s fun a b => .ok (truthWord (decide (a.toInt ≤ b.toInt)))

theorem exec_eq_commit (i : Instr) (s : State) : exec i s = s.commit (effect i s) := by
  cases i <;> rfl

/-- The effect of DROP_N: the sign of the count, then the stack (R83). -/
theorem effect_dropN (n : Word) (s : State) :
    effect (.dropN n) s =
      if n.toInt < 0 then .error .malformedProgram
      else dropTop n.toInt.toNat s.stack >>= fun st => .ok (s.afterOpi, st) := by
  by_cases h : n.toInt < 0
  · simp [effect, h, throw, throwThe, MonadExceptOf.throw]
  · simp [effect, h]
    rfl

/-- An instruction's outcome: its writes if its effect has no error, else the fault alone, and nothing else. -/
theorem exec_cases {i : Instr} {s t : State} (h : exec i s = .next t) :
    (∃ ip st, effect i s = .ok (ip, st) ∧ t = s.moveTo ip st) ∨ ∃ k, effect i s = .error k ∧ t = s.raise k := by
  rw [exec_eq_commit] at h
  rcases State.commit_cases s (effect i s) with ⟨ip, st, he, hc⟩ | ⟨k, he, hc⟩ <;>
    rw [hc, Host.Outcome.next.injEq] at h
  · exact .inl ⟨ip, st, he, h.symm⟩
  · exact .inr ⟨k, he, h.symm⟩

/-- From a state without a fault, an instruction raises `k` exactly when its effect has the error `k`. -/
theorem exec_raises_iff {i : Instr} {s : State} {k : FaultKind} (he : s.err = none) :
    (∃ t, exec i s = .next t ∧ t.err = some k) ↔ effect i s = .error k := by
  rw [exec_eq_commit]
  rcases State.commit_cases s (effect i s) with ⟨ip, st, h, hc⟩ | ⟨k', h, hc⟩ <;> rw [hc, h] <;> simp [he]

theorem twoOperand_ok {s : State} {f : Word → Word → Except FaultKind Word} {ip : BitVec 32} {st : List Word}
    (h : twoOperand s f = .ok (ip, st)) :
    ∃ below b a v, s.stack = below ++ [b, a] ∧ f a b = .ok v ∧ s.stackCap ≠ some below.length ∧
      st = below ++ [v] ∧ ip = s.ip + 1#32 := by
  rcases twoOperand_cases s f with ⟨_, e⟩ | ⟨below, b, a, hs, ⟨_, _, e⟩ | ⟨v, hv, ⟨_, e⟩ | ⟨hc, e⟩⟩⟩ <;> rw [e] at h <;>
    simp only [reduceCtorEq, Except.ok.injEq, Prod.mk.injEq] at h
  exact ⟨below, b, a, v, hs, hv, hc, h.2.symm, h.1.symm⟩

/-- What is known of the stack before and after an instruction whose effect has no error (R13, R16). -/
theorem effect_ok {i : Instr} {s : State} {ip : BitVec 32} {st : List Word} (h : effect i s = .ok (ip, st)) :
    match i with
    | .halt => ip = BitVec.ofNat 32 s.progLen ∧ st = s.stack
    | .jump => s.stack = st ++ [ip]
    | .jumpIfZero => ∃ cond target, s.stack = st ++ [cond, target] ∧ ip = if cond = 0#32 then target else s.ip + 1#32
    | .pushConst v => s.stackCap ≠ some s.stack.length ∧ st = s.stack ++ [v] ∧ ip = s.ip + 5#32
    | .loadAtDepth d =>
      ∃ v, readDepth s.stack d = .ok v ∧ s.stackCap ≠ some s.stack.length ∧ st = s.stack ++ [v] ∧ ip = s.ip + 5#32
    | .storeAtDepth d =>
      ∃ below v, s.stack = below ++ [v] ∧ 0 ≤ d.toInt ∧ d.toInt < below.length ∧
        st = below.set (depthIndex below.length d).toNat v ∧ ip = s.ip + 5#32
    | .dropN n =>
      0 ≤ n.toInt ∧ n.toInt.toNat ≤ s.stack.length ∧ st = s.stack.take (s.stack.length - n.toInt.toNat) ∧
        ip = s.ip + 5#32
    | .add | .sub | .mul | .div | .mod | .eq | .gt | .lt | .ge | .le =>
      ∃ below b a v, s.stack = below ++ [b, a] ∧ s.stackCap ≠ some below.length ∧ st = below ++ [v] ∧
        ip = s.ip + 1#32 := by
  have two {f : Word → Word → Except FaultKind Word} (h : twoOperand s f = .ok (ip, st)) :
      ∃ below b a v, s.stack = below ++ [b, a] ∧ s.stackCap ≠ some below.length ∧ st = below ++ [v] ∧
        ip = s.ip + 1#32 := by
    obtain ⟨below, b, a, v, hs, _, hc, hst, hip⟩ := twoOperand_ok h
    exact ⟨below, b, a, v, hs, hc, hst, hip⟩
  cases i
  case halt =>
    obtain ⟨rfl, rfl⟩ : BitVec.ofNat 32 s.progLen = ip ∧ s.stack = st := by simpa [effect] using h
    exact ⟨rfl, rfl⟩
  case jump =>
    rcases pop_cases s.stack with ⟨_, hp⟩ | ⟨below, v, hs, hp⟩ <;> simp [effect, hp, pure, Except.pure] at h
    simp [hs, h]
  case jumpIfZero =>
    rcases pop_cases s.stack with ⟨_, hp⟩ | ⟨below, v, hs, hp⟩
    · simp [effect, hp] at h
    · rcases pop_cases below with ⟨_, hp'⟩ | ⟨below', v', hs', hp'⟩ <;>
        simp [effect, hp, hp', pure, Except.pure] at h
      refine ⟨v', v, by simp [hs, hs', h.2], ?_⟩
      rw [← h.1]
      simp [isZero, State.afterOp]
  case pushConst v =>
    rcases push_cases s.stackCap v s.stack with ⟨_, hp⟩ | ⟨hc, hp⟩ <;> simp [effect, hp, pure, Except.pure] at h
    exact ⟨hc, h.2.symm, h.1.symm⟩
  case loadAtDepth d =>
    rcases readDepth_cases s.stack d with ⟨_, hr⟩ | ⟨_, _, v, _, hr⟩
    · simp [effect, hr] at h
    · rcases push_cases s.stackCap v s.stack with ⟨_, hp⟩ | ⟨hc, hp⟩ <;>
        simp [effect, hr, hp, pure, Except.pure] at h
      exact ⟨v, hr, hc, h.2.symm, h.1.symm⟩
  case storeAtDepth d =>
    rcases pop_cases s.stack with ⟨_, hp⟩ | ⟨below, v, hs, hp⟩
    · simp [effect, hp] at h
    · rcases writeDepth_cases below d v with ⟨_, hw⟩ | ⟨h0, h1, hw⟩ <;>
        simp [effect, hs, hw, pure, Except.pure] at h
      exact ⟨below, v, hs, h0, h1, h.2.symm, h.1.symm⟩
  case dropN n =>
    rw [effect_dropN] at h
    split at h
    · simp at h
    · rcases dropTop_cases n.toInt.toNat s.stack with ⟨_, hd⟩ | ⟨hle, hd⟩ <;> simp [hd] at h
      exact ⟨by omega, hle, h.2.symm, h.1.symm⟩
  all_goals
    simp only [effect] at h
    exact two h

end Sys2Proof.Machine
end

