-- ==== Sys2Proof/Laws/PerInstr.lean ====
section
/-!
SUPPORT. Per-instruction statements: an instruction is encoded in as many bytes as its length says, its opcode byte is
in the map, and that byte alone tells how many immediate bytes follow (spec/30_encoding.md R50, R53, R55).
-/

namespace Sys2Proof.Laws.EncodedLength

/-- The encoding is one opcode byte and the immediate bytes that this byte calls for, `i.length` bytes in all. -/
def Statement (i : Instr) : Prop :=
  ∃ b rest, encode i = b :: rest ∧ rest.length = immediateBytes b ∧ 1 + rest.length = i.length

theorem halt : Statement .halt := ⟨_, _, rfl, rfl, rfl⟩
theorem jump : Statement .jump := ⟨_, _, rfl, rfl, rfl⟩
theorem jumpIfZero : Statement .jumpIfZero := ⟨_, _, rfl, rfl, rfl⟩
theorem pushConst (v : Word) : Statement (.pushConst v) := ⟨_, _, rfl, rfl, rfl⟩
theorem loadAtDepth (d : Word) : Statement (.loadAtDepth d) := ⟨_, _, rfl, rfl, rfl⟩
theorem storeAtDepth (d : Word) : Statement (.storeAtDepth d) := ⟨_, _, rfl, rfl, rfl⟩
theorem dropN (n : Word) : Statement (.dropN n) := ⟨_, _, rfl, rfl, rfl⟩
theorem add : Statement .add := ⟨_, _, rfl, rfl, rfl⟩
theorem sub : Statement .sub := ⟨_, _, rfl, rfl, rfl⟩
theorem mul : Statement .mul := ⟨_, _, rfl, rfl, rfl⟩
theorem div : Statement .div := ⟨_, _, rfl, rfl, rfl⟩
theorem mod : Statement .mod := ⟨_, _, rfl, rfl, rfl⟩
theorem eq : Statement .eq := ⟨_, _, rfl, rfl, rfl⟩
theorem gt : Statement .gt := ⟨_, _, rfl, rfl, rfl⟩
theorem lt : Statement .lt := ⟨_, _, rfl, rfl, rfl⟩
theorem ge : Statement .ge := ⟨_, _, rfl, rfl, rfl⟩
theorem le : Statement .le := ⟨_, _, rfl, rfl, rfl⟩

end Sys2Proof.Laws.EncodedLength
end

