-- ==== Sys2Proof/Laws/Step.lean ====
section
/-!
SUPPORT. Reading the program space, the fetch, and everything a step can do (spec/40_control.md R70, R72).
-/

namespace Sys2Proof.Machine

theorem State.progRead_lt {s : State} {a : Nat} (h : a < s.progLen) : s.progRead a = some (Memory.read s.prog a) := by
  simp [State.progRead, h]

theorem State.progRead_ge {s : State} {a : Nat} (h : s.progLen ≤ a) : s.progRead a = none := by
  simp [State.progRead, Nat.not_lt.2 h]

/-- A byte is there exactly below `L` (R38). -/
theorem State.progRead_some {s : State} {a : Nat} {b : Byte} (h : s.progRead a = some b) : a < s.progLen := by
  by_contra hn
  simp [State.progRead_ge (Nat.le_of_not_lt hn)] at h

/-- As many bytes are read as are asked for, and all exist. -/
theorem State.progReadN_some {s : State} {a n : Nat} {bs : List Byte} (h : s.progReadN a n = some bs) :
    bs.length = n ∧ (n ≠ 0 → a + n ≤ s.progLen) ∧ ∀ k, k < n → s.progRead (a + k) = bs[k]? := by
  induction n generalizing a bs with
  | zero =>
    obtain rfl : bs = [] := by simpa [State.progReadN, eq_comm] using h
    simp
  | succ n ih =>
    simp only [State.progReadN] at h
    split at h
    case h_2 => simp at h
    case h_1 b bs' hb hbs =>
      obtain rfl : b :: bs' = bs := by simpa using h
      obtain ⟨hl, hle, hk⟩ := ih hbs
      have hlt := State.progRead_some hb
      refine ⟨by simp [hl], fun _ => ?_, fun k hkn => ?_⟩
      · rcases Nat.eq_zero_or_pos n with rfl | hn
        · omega
        · have := hle (by omega); omega
      · cases k with
        | zero => simpa using hb
        | succ k =>
          have := hk k (by omega)
          simpa [Nat.add_assoc, Nat.add_comm 1 k] using this

/-- Bytes below `L` can all be read. -/
theorem State.progReadN_exists (s : State) (a n : Nat) (h : a + n ≤ s.progLen) : ∃ bs, s.progReadN a n = some bs := by
  induction n generalizing a with
  | zero => exact ⟨[], rfl⟩
  | succ n ih =>
    obtain ⟨bs, hbs⟩ := ih (a + 1) (by omega)
    exact ⟨Memory.read s.prog a :: bs, by simp [State.progReadN, State.progRead_lt (show a < s.progLen by omega), hbs]⟩

theorem State.status_running {s : State} : s.status = .running ↔ s.err = none ∧ s.ip.toNat < s.progLen := by
  unfold State.status State.atEnd
  cases s.err <;> simp

theorem State.status_halted {s : State} : s.status = .halted ↔ s.err = none ∧ s.progLen ≤ s.ip.toNat := by
  unfold State.status State.atEnd
  cases s.err <;> simp

theorem State.status_faulted {s : State} {k : FaultKind} : s.status = .faulted k ↔ s.err = some k := by
  unfold State.status
  cases s.err
  · simp; split <;> simp
  · simp

/-- The fetch, below `L`: the opcode byte, and its immediate bytes if they exist (R72). -/
theorem State.fetchBytes_cases {s : State} (h : s.ip.toNat < s.progLen) :
    ∃ b, s.progRead s.ip.toNat = some b ∧
      ((s.progLen < s.ip.toNat + 1 + immediateBytes b ∧ s.fetchBytes = some [b]) ∨
        (s.ip.toNat + 1 + immediateBytes b ≤ s.progLen ∧
          ∃ bs, s.progReadN (s.ip.toNat + 1) (immediateBytes b) = some bs ∧ s.fetchBytes = some (b :: bs))) := by
  refine ⟨_, State.progRead_lt h, ?_⟩
  by_cases hs : s.progLen - (s.ip.toNat + 1) < immediateBytes (Memory.read s.prog s.ip.toNat)
  · exact .inl ⟨by omega, by simp [State.fetchBytes, State.progRead_lt h, hs]⟩
  · have hle : s.ip.toNat + 1 + immediateBytes (Memory.read s.prog s.ip.toNat) ≤ s.progLen := by omega
    obtain ⟨bs, hbs⟩ := State.progReadN_exists s _ _ hle
    exact .inr ⟨hle, bs, hbs, by simp [State.fetchBytes, State.progRead_lt h, hs, hbs]⟩

/-- The fetch and the decoder together, below `L`: an undefined opcode, a one-byte instruction, or an opcode with an
immediate that is truncated or there (R53, R56, R72). -/
theorem State.fetchInstr_cases {s : State} (h : s.ip.toNat < s.progLen) :
    ∃ b, s.progRead s.ip.toNat = some b ∧
      ((selectOpcode b = none ∧ s.fetchInstr = .raises .unknownOpcode) ∨
        (∃ i, selectOpcode b = some (.op i) ∧ s.fetchInstr = .instr i) ∨
        ∃ withImm, selectOpcode b = some (.opi withImm) ∧
          ((s.progLen < s.ip.toNat + 5 ∧ s.fetchInstr = .raises .malformedProgram) ∨
            (s.ip.toNat + 5 ≤ s.progLen ∧ ∃ b1 b2 b3 b4,
              s.progRead (s.ip.toNat + 1) = some b1 ∧ s.progRead (s.ip.toNat + 2) = some b2 ∧
              s.progRead (s.ip.toNat + 3) = some b3 ∧ s.progRead (s.ip.toNat + 4) = some b4 ∧
              s.fetchInstr = .instr (withImm (assembleImm b1 b2 b3 b4))))) := by
  obtain ⟨b, hb, hc⟩ := State.fetchBytes_cases h
  refine ⟨b, hb, ?_⟩
  cases hs : selectOpcode b with
  | none =>
    refine .inl ⟨rfl, ?_⟩
    rcases hc with ⟨_, hf⟩ | ⟨_, bs, _, hf⟩ <;> simp [State.fetchInstr, hf, decode, hs]
  | some f =>
    cases f with
    | op i =>
      refine .inr (.inl ⟨i, rfl, ?_⟩)
      rcases hc with ⟨_, hf⟩ | ⟨_, bs, _, hf⟩ <;> simp [State.fetchInstr, hf, decode, hs]
    | opi withImm =>
      refine .inr (.inr ⟨withImm, rfl, ?_⟩)
      have hi : immediateBytes b = 4 := by simp [immediateBytes, hs]
      rw [hi] at hc
      rcases hc with ⟨hlt, hf⟩ | ⟨hle, bs, hbs, hf⟩
      · exact .inl ⟨by omega, by simp [State.fetchInstr, hf, decode, hs]⟩
      · obtain ⟨hlen, _, hk⟩ := State.progReadN_some hbs
        match bs, hlen with
        | [b1, b2, b3, b4], _ =>
          have h1 := hk 0 (by omega)
          have h2 := hk 1 (by omega)
          have h3 := hk 2 (by omega)
          have h4 := hk 3 (by omega)
          exact .inr ⟨by omega, b1, b2, b3, b4, h1, h2, h3, h4, by simp [State.fetchInstr, hf, decode, hs]⟩

/-- Everything a step of an admitted program can do (R70). -/
theorem step_cases {s : State} (hl : progLenOk s.progLen = true) :
    (s.status ≠ .running ∧ step s = .next s) ∨
      (s.status = .running ∧
        ((∃ i, s.fetchInstr = .instr i ∧ step s = exec i s) ∨
          (∃ k, s.fetchInstr = .raises k ∧ step s = .next (s.raise k)) ∨
          (s.fetchInstr = .noByte ∧ step s = .fault .noProgramByte))) := by
  unfold step
  rw [if_pos hl]
  cases hst : s.status with
  | faulted k => exact .inl ⟨by simp, rfl⟩
  | halted => exact .inl ⟨by simp, rfl⟩
  | running =>
    refine .inr ⟨rfl, ?_⟩
    cases hf : s.fetchInstr with
    | instr i => exact .inl ⟨i, rfl, rfl⟩
    | raises k => exact .inr (.inl ⟨k, rfl, rfl⟩)
    | noByte => exact .inr (.inr ⟨rfl, rfl⟩)

/-- Everything a step that answers a next state has done (R70). -/
theorem step_next {s t : State} (h : step s = .next t) :
    progLenOk s.progLen = true ∧
      ((s.status ≠ .running ∧ t = s) ∨
        (s.status = .running ∧
          ((∃ i, s.fetchInstr = .instr i ∧ exec i s = .next t) ∨ ∃ k, s.fetchInstr = .raises k ∧ t = s.raise k))) := by
  have hl : progLenOk s.progLen = true := by
    by_contra hl
    simp [step, hl] at h
  refine ⟨hl, ?_⟩
  rcases step_cases hl with ⟨hr, e⟩ | ⟨hr, ⟨i, hf, e⟩ | ⟨k, hf, e⟩ | ⟨_, e⟩⟩ <;> rw [e] at h
  · exact .inl ⟨hr, (Host.Outcome.next.inj h).symm⟩
  · exact .inr ⟨hr, .inl ⟨i, hf, h⟩⟩
  · exact .inr ⟨hr, .inr ⟨k, hf, (Host.Outcome.next.inj h).symm⟩⟩
  · exact absurd h (by simp)

end Sys2Proof.Machine
end

