-- ==== Sys2Proof/Laws/Safety.lean ====
section
/-!
SUPPORT. The Bool-valued checks of a state, each read as the proposition it decides. Rewrite with these before
simplifying the fields of an updated state.
-/

namespace Sys2Proof.Machine

theorem State.atEnd_iff {s : State} : s.atEnd = true ↔ s.progLen ≤ s.ip.toNat := by simp [State.atEnd]

theorem State.atEnd_eq_false_iff {s : State} : s.atEnd = false ↔ s.ip.toNat < s.progLen := by simp [State.atEnd]

theorem progLenOk_iff {n : Nat} : progLenOk n = true ↔ n ≤ Config.maxProgLen := by simp [progLenOk]

theorem State.stackFits_iff {s : State} :
    s.stackFits = true ↔ ∀ cap, s.stackCap = some cap → s.stack.length ≤ cap := by
  unfold State.stackFits
  cases s.stackCap <;> simp

theorem State.final_iff {s : State} : s.final = true ↔ s.status = .halted := by simp [State.final]

theorem State.endedWell_iff {s : State} : s.endedWell = true ↔ s.status = .halted := by simp [State.endedWell]

theorem State.ended_iff {s : State} : s.ended = true ↔ s.status ≠ .running := by simp [State.ended]

/-- The invariant, clause by clause. -/
theorem State.inv_iff {s : State} :
    s.inv = true ↔
      Memory.wf s.prog = true ∧ Memory.below s.prog s.progLen = true ∧ s.progLen ≤ Config.maxProgLen ∧
        s.stackFits = true ∧ (s.err = none ∨ s.ip.toNat < s.progLen) := by
  simp [State.inv, progLenOk_iff, State.atEnd_eq_false_iff, and_assoc]

end Sys2Proof.Machine
end

