-- ==== Sys2Proof/Tests/Slice0.lean ====
section
/-!
SUPPORT. Small tests. Expected results are the vectors of spec/95_test_vectors.md (the row's name stands in each
comment) or words written out from the tables of spec/30_encoding.md. The last part holds, for every statement that has
hypotheses, a state and operands that meet them.
-/

namespace Sys2Proof.Tests

open Sys2Proof.Machine

/-- A machine with the program `bytes` loaded, `ip` and the stack as given (bottom first), and no capacity. -/
def machineAt (bytes : List Byte) (ip : BitVec 32) (stack : List Word) : State :=
  { State.reset.placeBytes 0 bytes with ip := ip, stack := stack }

/-- The same with capacity 2 (vectors O1 to O5). -/
def atCap2 (bytes : List Byte) (stack : List Word) : State := { machineAt bytes 0#32 stack with stackCap := some 2 }

/-- What a test looks at: `ip`, the stack's signed values, and the latch. -/
def view (o : Host.Outcome State Fault Refusal) : Option (Nat × List Int × Option FaultKind) :=
  match o with
  | .next t => some (t.ip.toNat, t.stack.map BitVec.toInt, t.err)
  | .fault _ | .refused _ => none

/-- A two-operand instruction on the stack `[b, a]`: the one element left, or none for a fault. -/
def onPair (i : Instr) (p : Int × Int) : Option Int :=
  match exec i (machineAt [] 0#32 [BitVec.ofInt 32 p.1, BitVec.ofInt 32 p.2]) with
  | .next t => if t.err = none ∧ t.stack.length = 1 then t.stack.head?.map BitVec.toInt else none
  | .fault _ | .refused _ => none

/-! ## The checks on a program image -/

theorem test_wellFormed_accepts_any_bytes : imageOk [0xFF#8, 0x10#8] = true := by decide
theorem test_wellFormed_accepts_the_longest : progLenOk 2147483647 = true := by decide
theorem test_wellFormed_refuses_a_longer_length : progLenOk 2147483648 = false := by decide
theorem test_wellFormed_refuses_a_longer_image : imageOk (List.replicate 2147483648 0#8) = false := by
  unfold imageOk
  rw [List.length_replicate]
  decide
theorem test_memory_refuses_unsorted_cells : Memory.wf [(3, 1#8), (2, 1#8)] = false := by decide
theorem test_memory_refuses_repeated_cells : Memory.wf [(3, 1#8), (3, 2#8)] = false := by decide
theorem test_memory_refuses_an_unlisted_value : Memory.wf [(3, 0#8)] = false := by decide
theorem test_memory_refuses_a_cell_past_the_end : Memory.below [(3, 1#8)] 3 = false := by decide
theorem test_memory_erases_a_zero : Memory.write [(1, 1#8), (3, 3#8)] 3 0#8 = [(1, 1#8)] := by decide

/-! ## Decoding: one word for every constructor, written from R51, R52 and R55 -/

theorem test_decode_control :
    decode [0x00#8] = .ok (.halt, []) ∧ decode [0x01#8] = .ok (.jump, []) ∧ decode [0x02#8] = .ok (.jumpIfZero, []) :=
  ⟨rfl, rfl, rfl⟩

-- the immediates of the table of part 2.3
theorem test_decode_stack :
    decode [0x10#8, 0x12#8, 0x34#8, 0x56#8, 0x78#8, 0x00#8] = .ok (.pushConst 0x12345678#32, [0x00#8]) ∧
    decode [0x11#8, 0x00#8, 0x01#8, 0x00#8, 0x00#8] = .ok (.loadAtDepth 65536#32, []) ∧
    decode [0x20#8, 0x00#8, 0x00#8, 0x01#8, 0x00#8] = .ok (.storeAtDepth 256#32, []) ∧
    decode [0x21#8, 0xFF#8, 0xFF#8, 0xFF#8, 0xF9#8] = .ok (.dropN (-7#32), []) := ⟨rfl, rfl, rfl, rfl⟩

theorem test_decode_arith :
    decode [0x30#8] = .ok (.add, []) ∧ decode [0x31#8] = .ok (.sub, []) ∧ decode [0x32#8] = .ok (.mul, []) ∧
    decode [0x33#8] = .ok (.div, []) ∧ decode [0x34#8] = .ok (.mod, []) := ⟨rfl, rfl, rfl, rfl, rfl⟩

theorem test_decode_compare :
    decode [0x40#8] = .ok (.eq, []) ∧ decode [0x41#8] = .ok (.gt, []) ∧ decode [0x42#8] = .ok (.lt, []) ∧
    decode [0x43#8] = .ok (.ge, []) ∧ decode [0x44#8] = .ok (.le, []) := ⟨rfl, rfl, rfl, rfl, rfl⟩

-- the two ends of each undefined range (part 2.3), and Q6: no immediate is looked at
theorem test_decode_undefined :
    ([0x03#8, 0x0F#8, 0x12#8, 0x1F#8, 0x22#8, 0x2F#8, 0x35#8, 0x3F#8, 0x45#8, 0x7F#8, 0x80#8, 0xFF#8].map
      fun b => (selectOpcode b).isNone).all id = true ∧
    decode [0x12#8, 0x00#8, 0x00#8] = .error .unknownOpcode := ⟨by decide, rfl⟩

-- R56: there are 239 undefined bytes
theorem test_decode_counts_undefined :
    ((List.range 256).filter fun n => (selectOpcode (BitVec.ofNat 8 n)).isNone).length = 239 := by
  decide +kernel

theorem test_decode_truncated : decode [0x10#8, 0x00#8, 0x00#8, 0x00#8] = .error .truncatedImmediate := rfl

-- the number of a table row: first byte lowest
theorem test_decodeTableWord :
    decodeTableWord 8 0x21 = some (.dropN 0#32) ∧ decodeTableWord 40 0x0500000010 = some (.pushConst 5#32) ∧
    decodeTableWord 8 0x03 = none := by decide

/-! ## One step -/

-- K2, K3
theorem test_halt : view (step (machineAt [0x00#8, 0x10#8, 0#8, 0#8, 0#8, 1#8] 0#32 [4#32])) = some (6, [4], none) := by decide
theorem test_halted_stays : view (step (machineAt [0x00#8] 1#32 [4#32])) = some (1, [4], none) := by decide

-- K4, K6, K7; K9
theorem test_jump :
    view (step (machineAt [0x01#8, 0#8, 0#8, 0#8] 0#32 [3#32])) = some (3, [], none) ∧
    view (step (machineAt [0x01#8] 0#32 [1000#32])) = some (1000, [], none) ∧
    view (step (machineAt [0x01#8] 0#32 [-1#32])) = some (4294967295, [], none) := by decide
theorem test_jump_underflow : view (step (machineAt [0x01#8] 0#32 [])) = some (0, [], some .stackUnderflow) := by decide

-- K11, K12, K13, K16; K14
theorem test_jumpIfZero :
    view (step (machineAt [0x02#8, 0#8, 0#8, 0#8, 0#8] 0#32 [9#32, 0#32, 4#32])) = some (4, [9], none) ∧
    view (step (machineAt [0x02#8, 0#8, 0#8, 0#8, 0#8] 0#32 [9#32, 5#32, 4#32])) = some (1, [9], none) ∧
    view (step (machineAt [0x02#8, 0#8, 0#8, 0#8, 0#8] 0#32 [-1#32, 4#32])) = some (1, [], none) ∧
    view (step (machineAt [0x02#8, 0#8, 0#8, 0#8, 0#8] 0#32 [0#32, -5#32])) = some (4294967291, [], none) := by decide
theorem test_jumpIfZero_underflow :
    view (step (machineAt [0x02#8, 0#8, 0#8, 0#8, 0#8] 0#32 [4#32])) = some (0, [4], some .stackUnderflow) := by decide

-- T1, T3, O4; T2, O1
theorem test_pushConst :
    view (step (machineAt [0x10#8, 0x12#8, 0x34#8, 0x56#8, 0x78#8] 0#32 [])) = some (5, [305419896], none) ∧
    view (step (machineAt [0x00#8, 0x10#8, 0xFF#8, 0xFF#8, 0xFF#8, 0xFE#8] 1#32 [1#32])) = some (6, [1, -2], none) ∧
    view (step (atCap2 [0x10#8, 0#8, 0#8, 0#8, 3#8] [1#32])) = some (5, [1, 3], none) := by decide
theorem test_pushConst_faults :
    view (step (machineAt [0x10#8, 0#8, 0#8, 0#8] 0#32 [])) = some (0, [], some .malformedProgram) ∧
    view (step (atCap2 [0x10#8, 0#8, 0#8, 0#8, 3#8] [1#32, 2#32])) = some (0, [1, 2], some .stackOverflow) := by decide

-- T5, T6; T7, T8, T10, T11, T9, O2, O5
theorem test_loadAtDepth :
    view (step (machineAt [0x11#8, 0#8, 0#8, 0#8, 0#8] 0#32 [7#32, 8#32, 9#32])) = some (5, [7, 8, 9, 9], none) ∧
    view (step (machineAt [0x11#8, 0#8, 0#8, 0#8, 2#8] 0#32 [7#32, 8#32, 9#32])) = some (5, [7, 8, 9, 7], none) := by decide
theorem test_loadAtDepth_faults :
    ([3#32, -1#32, Word.int32Min, Word.int32Max].all fun d =>
      view (exec (.loadAtDepth d) (machineAt [] 0#32 [7#32, 8#32, 9#32])) ==
        some (0, [7, 8, 9], some .addressOutOfRange)) = true ∧
    view (exec (.loadAtDepth 0#32) (machineAt [] 0#32 [])) = some (0, [], some .addressOutOfRange) ∧
    view (exec (.loadAtDepth 0#32) (atCap2 [] [1#32, 2#32])) = some (0, [1, 2], some .stackOverflow) ∧
    view (exec (.loadAtDepth 5#32) (atCap2 [] [1#32, 2#32])) = some (0, [1, 2], some .addressOutOfRange) :=
  ⟨by decide, by decide, by decide, by decide⟩

-- T13, T14; T15, T16, T17, T19
theorem test_storeAtDepth :
    view (step (machineAt [0x20#8, 0#8, 0#8, 0#8, 0#8] 0#32 [7#32, 8#32, 9#32])) = some (5, [7, 9], none) ∧
    view (step (machineAt [0x20#8, 0#8, 0#8, 0#8, 1#8] 0#32 [7#32, 8#32, 9#32])) = some (5, [9, 8], none) := by decide
theorem test_storeAtDepth_faults :
    view (step (machineAt [0x20#8, 0#8, 0#8, 0#8, 2#8] 0#32 [7#32, 8#32, 9#32])) = some (0, [7, 8, 9], some .addressOutOfRange) ∧
    view (step (machineAt [0x20#8, 0#8, 0#8, 0#8, 0#8] 0#32 [5#32])) = some (0, [5], some .addressOutOfRange) ∧
    view (step (machineAt [0x20#8, 0#8, 0#8, 0#8, 7#8] 0#32 [])) = some (0, [], some .stackUnderflow) ∧
    view (step (machineAt [0x20#8] 0#32 [])) = some (0, [], some .malformedProgram) := by decide

-- T20, T21, T22; T23, T24, T25, T26
theorem test_dropN :
    view (step (machineAt [0x21#8, 0#8, 0#8, 0#8, 0#8] 0#32 [])) = some (5, [], none) ∧
    view (step (machineAt [0x21#8, 0#8, 0#8, 0#8, 2#8] 0#32 [7#32, 8#32, 9#32])) = some (5, [7], none) ∧
    view (step (machineAt [0x21#8, 0#8, 0#8, 0#8, 3#8] 0#32 [7#32, 8#32, 9#32])) = some (5, [], none) := by decide
theorem test_dropN_faults :
    view (step (machineAt [0x21#8, 0#8, 0#8, 0#8, 4#8] 0#32 [7#32, 8#32, 9#32])) = some (0, [7, 8, 9], some .stackUnderflow) ∧
    view (step (machineAt [0x21#8, 0xFF#8, 0xFF#8, 0xFF#8, 0xFF#8] 0#32 [])) = some (0, [], some .malformedProgram) ∧
    view (step (machineAt [0x21#8, 0x7F#8, 0xFF#8, 0xFF#8, 0xFF#8] 0#32 [1#32])) = some (0, [1], some .stackUnderflow) := by decide

-- rows of the matrix of part 2.4, written [b, a] as there; K18, O3
theorem test_add :
    ([(2, 3), (7, -2), (2147483647, 1), (-2147483648, -1), (-2147483648, -2147483648)].map (onPair .add)) =
      [some 5, some 5, some (-2147483648), some 2147483647, some 0] := by decide
theorem test_add_in_place :
    view (step (machineAt [0x30#8] 0#32 [1#32, 2#32])) = some (1, [3], none) ∧
    view (step (machineAt [0x30#8] 0#32 [100#32, 2#32, 3#32])) = some (1, [100, 5], none) ∧
    view (step (atCap2 [0x30#8] [1#32, 2#32])) = some (1, [3], none) := by decide
theorem test_sub :
    ([(3, 5), (5, 3), (2147483647, 1), (-2147483648, -1), (2147483647, -2147483648)].map (onPair .sub)) =
      [some 2, some (-2), some (-2147483646), some 2147483647, some 1] := by decide
theorem test_mul :
    ([(3, 5), (7, -2), (-2147483648, -1), (2147483647, 2147483647), (65536, 65536), (46341, 46341)].map (onPair .mul)) =
      [some 15, some (-14), some (-2147483648), some 1, some 0, some (-2147479015)] := by decide
theorem test_div :
    ([(2, 7), (2, -7), (-2, 7), (-2, -7), (7, -2), (-1, -2147483648), (2147483647, -2147483648), (0, 5)].map
      (onPair .div)) = [some 3, some (-3), some (-3), some 3, some 0, some (-2147483648), some (-1), none] := by decide
-- Q3, P6a step 3
theorem test_div_faults :
    view (step (machineAt [0x33#8] 0#32 [0#32])) = some (0, [0], some .stackUnderflow) ∧
    view (step (machineAt [0x33#8] 0#32 [0#32, 7#32])) = some (0, [0, 7], some .divideByZero) := by decide
theorem test_mod :
    ([(2, 7), (2, -7), (-2, 7), (-2, -7), (7, -2), (-1, -2147483648), (-2147483648, 2147483647), (5, 0)].map
      (onPair .mod)) = [some 1, some (-1), some 1, some (-1), some (-2), some 0, some 2147483647, some 0] := by decide
-- Q8
theorem test_mod_fault : view (step (machineAt [0x34#8] 0#32 [0#32, 5#32])) = some (0, [0, 5], some .divideByZero) := by decide
theorem test_eq : ([(5, 3), (0, 0), (7, -2)].map (onPair .eq)) = [some 0, some 1, some 0] := by decide
theorem test_gt :
    ([(3, 5), (5, 3), (0, 0), (-1, 0), (-2147483648, 2147483647)].map (onPair .gt)) =
      [some 1, some 0, some 0, some 1, some 1] := by decide
theorem test_lt :
    ([(3, 5), (5, 3), (0, 0), (0, -1), (2147483647, -2147483648)].map (onPair .lt)) =
      [some 0, some 1, some 0, some 1, some 1] := by decide
theorem test_ge : ([(3, 5), (5, 3), (0, 0), (-1, 0)].map (onPair .ge)) = [some 1, some 0, some 1, some 1] := by decide
theorem test_le : ([(3, 5), (5, 3), (0, 0), (0, -1)].map (onPair .le)) = [some 0, some 1, some 1, some 1] := by decide

-- S9, XL: an undefined opcode in the last byte
theorem test_unknownOpcode :
    view (step (machineAt [0xFF#8] 0#32 [])) = some (0, [], some .unknownOpcode) ∧
    view (step (machineAt [0x10#8, 0#8, 0#8, 0#8, 1#8, 0xFF#8] 5#32 [])) = some (5, [], some .unknownOpcode) := by decide

-- E1, E2, E4, E5, K19
theorem test_ports :
    (machineAt [0x10#8, 0#8, 0#8, 0#8, 5#8, 0#8] 6#32 [5#32]).result = .value 5#32 ∧
    (machineAt [0x10#8, 0#8, 0#8, 0#8, 5#8, 0#8] 6#32 [5#32]).final = true ∧
    ({ machineAt [0x33#8] 0#32 [0#32, 7#32] with err := some .divideByZero } : State).result = .invalid .divideByZero ∧
    (machineAt [0x10#8, 0#8, 0#8, 0#8, 5#8, 0#8] 0#32 []).result = .emptyResult ∧
    (machineAt [0x31#8, 0#8] 0#32 [3#32, 5#32]).result = .value 5#32 ∧ (machineAt [0x31#8, 0#8] 0#32 [3#32, 5#32]).final = false ∧
    (machineAt [] 0#32 []).status = .halted := by decide

-- the host's two questions, on a row with an immediate and on one without
theorem test_withFetchWord :
    view (step (State.reset.withFetchWord 8 0x10)) = some (5, [0], none) ∧
    view (step (State.reset.withFetchWord 8 0x00)) = some (5, [], none) ∧
    view (step (({ State.reset with err := some .divideByZero, ip := -1#32 } : State).withFetchWord 8 0x10))
      = some (5, [0], none) := by decide

/-! ## Witnesses: states and operands that meet the hypotheses of the statements -/

theorem witness_DecodedBytesAreTheEncoding : decode [0x11#8, 0#8, 0#8, 0#8, 2#8, 0x30#8] = .ok (.loadAtDepth 2#32, [0x30#8]) := rfl
-- the largest immediate and the smallest, for STORE_AT_DEPTH and PUSH_CONST
theorem witness_ImmediateIsBigEndianTwosComplement :
    (let s := machineAt [0x20#8, 0x7F#8, 0xFF#8, 0xFF#8, 0xFF#8] 0#32 []
     s.progRead 0 = some 0x20#8 ∧ s.progRead 1 = some 0x7F#8 ∧ s.progRead 2 = some 0xFF#8 ∧ s.progRead 3 = some 0xFF#8 ∧
      s.progRead 4 = some 0xFF#8 ∧ s.fetchInstr = .instr (.storeAtDepth 2147483647#32)) ∧
    (let s := machineAt [0x10#8, 0x80#8, 0#8, 0#8, 0#8] 0#32 []
     s.progRead 0 = some 0x10#8 ∧ s.progRead 1 = some 0x80#8 ∧ s.progRead 2 = some 0#8 ∧ s.progRead 3 = some 0#8 ∧
      s.progRead 4 = some 0#8 ∧ s.fetchInstr = .instr (.pushConst Word.int32Min)) := by decide
theorem witness_FirstByteAloneGivesTheLength :
    decode [0x20#8, 0#8, 0#8, 0#8, 1#8] = .ok (.storeAtDepth 1#32, []) ∧ decode [0x22#8 - 1#8, 0#8, 0#8, 0#8, 1#8] =
      .ok (.dropN 1#32, []) ∧ decode [0x30#8, 0x30#8] = .ok (.add, [0x30#8]) := ⟨rfl, rfl, rfl⟩
theorem witness_StepRunsDecodedInstruction :
    let s := machineAt [0x00#8, 0x10#8, 0#8, 0#8, 0#8, 5#8] 1#32 []
    s.progLen ≤ Config.maxProgLen ∧ s.status = .running ∧
      s.progReadN s.ip.toNat 5 = some [0x10#8, 0#8, 0#8, 0#8, 5#8] ∧
      decode [0x10#8, 0#8, 0#8, 0#8, 5#8] = .ok (.pushConst 5#32, []) := ⟨by decide, by decide, by decide, rfl⟩
theorem witness_HaltedAndFaultedMachinesStandStill :
    (machineAt [0#8] 1#32 []).progLen ≤ (machineAt [0#8] 1#32 []).ip.toNat ∧
    ({ machineAt [0xFF#8] 0#32 [] with err := some .unknownOpcode } : State).err ≠ none ∧
    (machineAt [0#8] 1#32 []).progLen ≤ Config.maxProgLen := by decide
theorem witness_EveryStepAnswersANextState : (machineAt [] 0#32 []).progLen ≤ Config.maxProgLen := by decide
theorem witness_TooLongProgramIsRefused :
    Config.maxProgLen < ({ State.reset with progLen := 2147483648 } : State).progLen ∧
    Config.maxProgLen < (List.replicate 2147483648 (0#8 : Byte)).length := by
  rw [List.length_replicate]
  decide
-- exactly four bytes after the opcode, and three
theorem witness_ImmediateFetchNeedsFourBytes :
    let s := machineAt [0x10#8, 0#8, 0#8, 0#8, 1#8] 0#32 []
    let t := machineAt [0x21#8, 0#8, 0#8, 0#8] 0#32 []
    s.progLen ≤ Config.maxProgLen ∧ s.err = none ∧ s.progRead s.ip.toNat = some 0x10#8 ∧
      s.progLen - (s.ip.toNat + 1) = 4 ∧ t.err = none ∧ t.progRead t.ip.toNat = some 0x21#8 ∧
      t.progLen - (t.ip.toNat + 1) = 3 := by decide
theorem witness_HaltSetsIpToProgramLength :
    ({ State.reset with progLen := 2147483647 } : State).progLen ≤ Config.maxProgLen ∧
    view (exec .halt { State.reset with progLen := 2147483647 }) = some (2147483647, [], none) := by decide
theorem witness_JumpGoesToThePoppedTarget :
    (machineAt [1#8] 0#32 [7#32, 3#32]).stack = [7#32] ++ [3#32] ∧ (machineAt [1#8] 0#32 []).stack = [] := by decide
theorem witness_JumpIfZeroPopsTargetThenCondition :
    (machineAt [2#8] 0#32 [9#32, 0#32, 4#32]).stack = [9#32] ++ [0#32, 4#32] ∧
    (machineAt [2#8] 0#32 [1#32, 4#32]).stack = [] ++ [1#32, 4#32] ∧ (machineAt [2#8] 0#32 [4#32]).stack.length < 2 := by decide
-- a target equal to L, and a negative one
theorem witness_TargetsOutsideTheProgramHalt :
    let s := machineAt [1#8] 0#32 [0#32, 1#32]
    s.progLen ≤ Config.maxProgLen ∧ s.err = none ∧ (s.progLen : Int) ≤ (1#32 : Word).toInt ∧
      (Word.int32Min).toInt < 0 ∧ s.stack = [0#32] ++ [1#32] ∧ s.stack = [] ++ [0#32, 1#32] ∧
      (machineAt [1#8] 0#32 [Word.int32Min]).stack = [] ++ [Word.int32Min] := by decide
theorem witness_PushConstPushesItsImmediate :
    (atCap2 [] [1#32]).stackCap ≠ some (atCap2 [] [1#32]).stack.length ∧
    (atCap2 [] [1#32, 2#32]).stackCap = some (atCap2 [] [1#32, 2#32]).stack.length := by decide
-- the top, the bottom, and a full stack
theorem witness_LoadAtDepthCopiesTheElement :
    let s := machineAt [] 0#32 [7#32, 8#32, 9#32]
    s.stack = [7#32, 8#32] ++ 9#32 :: [] ∧ (0#32 : Word).toInt = ([] : List Word).length ∧
      s.stack = [] ++ 7#32 :: [8#32, 9#32] ∧ (2#32 : Word).toInt = [8#32, 9#32].length ∧
      s.stackCap ≠ some s.stack.length ∧ (atCap2 [] [1#32, 2#32]).stackCap = some (atCap2 [] [1#32, 2#32]).stack.length ∧
      (atCap2 [] [1#32, 2#32]).stack = [] ++ 1#32 :: [2#32] ∧ (1#32 : Word).toInt = [2#32].length := by decide
theorem witness_StoreAtDepthOverwritesTheElement :
    let s := machineAt [] 0#32 [7#32, 8#32, 9#32]
    s.stack = [7#32] ++ 8#32 :: [] ++ [9#32] ∧ (0#32 : Word).toInt = ([] : List Word).length ∧
      s.stack = [] ++ 7#32 :: [8#32] ++ [9#32] ∧ (1#32 : Word).toInt = [8#32].length := by decide
theorem witness_DropNDiscardsTheTopElements :
    (machineAt [] 0#32 []).stack = [] ++ [] ∧ (0#32 : Word).toInt = ([] : List Word).length ∧
    (machineAt [] 0#32 [7#32, 8#32]).stack = [] ++ [7#32, 8#32] ∧ (2#32 : Word).toInt = [7#32, 8#32].length := by decide
theorem witness_LoadAfterStoreReadsTheStoredValue :
    let s := machineAt [] 0#32 [7#32, 8#32, 9#32]
    s.err = none ∧ exec (.storeAtDepth 1#32) s = .next (machineAt [] 5#32 [9#32, 8#32]) ∧
      (machineAt [] 5#32 [9#32, 8#32]).err = none ∧ (machineAt [] 5#32 [9#32, 8#32]).stackCap ≠ some 2 := ⟨rfl, rfl, rfl, by decide⟩
-- the hypotheses shared by the statements about two-operand instructions, at a full capacity
theorem witness_two_operands_on_a_full_stack :
    (atCap2 [] [2#32, 3#32]).stackFits = true ∧ (atCap2 [] [2#32, 3#32]).stack = [] ++ [2#32, 3#32] := by decide
theorem witness_AddSubMulPushTheWrappedResult :
    (machineAt [] 0#32 [1#32, Word.int32Max]).stackFits = true ∧
    (machineAt [] 0#32 [1#32, Word.int32Max]).stack = [] ++ [1#32, Word.int32Max] := by decide
-- the largest and the smallest exact results: INT32_MAX - 1 + 1, INT32_MIN - 0, INT32_MIN * 1
theorem witness_AddSubMulAreExactInRange :
    (Word.int32Max - 1#32).toInt + (1#32 : Word).toInt = 2 ^ 31 - 1 ∧ Word.int32Min.toInt - (0#32 : Word).toInt = -2 ^ 31 ∧
    Word.int32Min.toInt * (1#32 : Word).toInt = -2 ^ 31 ∧
    (machineAt [] 0#32 [1#32, Word.int32Max - 1#32]).stack = [] ++ [1#32, Word.int32Max - 1#32] ∧
    (machineAt [] 0#32 [0#32, Word.int32Min]).stack = [] ++ [0#32, Word.int32Min] ∧
    (machineAt [] 0#32 [1#32, Word.int32Min]).stack = [] ++ [1#32, Word.int32Min] ∧
    (machineAt [] 0#32 [1#32, Word.int32Min]).stackFits = true ∧ (machineAt [] 0#32 [0#32, Word.int32Min]).stackFits = true ∧
    (machineAt [] 0#32 [1#32, Word.int32Max - 1#32]).stackFits = true := by decide
theorem witness_DivTruncatesTowardZero :
    let s := machineAt [] 0#32 [2#32, -7#32]
    s.stackFits = true ∧ s.stack = [] ++ [2#32, -7#32] ∧ (2#32 : Word) ≠ 0#32 ∧
      ¬((-7#32 : Word).toInt = -2 ^ 31 ∧ (2#32 : Word).toInt = -1) := by decide
theorem witness_MinByMinusOneWraps :
    (machineAt [] 0#32 [-1#32, Word.int32Min]).stackFits = true ∧
    (machineAt [] 0#32 [-1#32, Word.int32Min]).stack = [] ++ [-1#32, Word.int32Min] := by decide
theorem witness_ModPushesTheRemainder :
    (machineAt [] 0#32 [-2#32, 7#32]).stackFits = true ∧ (machineAt [] 0#32 [-2#32, 7#32]).stack = [] ++ [-2#32, 7#32] ∧
    (-2#32 : Word) ≠ 0#32 := by decide
theorem witness_LastPushedOperandIsTheLeftOne :
    (machineAt [] 0#32 []).stackCap = none ∧ (3#32 : Word) ≠ 0#32 ∧ (3#32 : Word) ≠ -1#32 := by decide
theorem witness_EqPushesOneForEqualValues :
    (machineAt [] 0#32 [5#32, 5#32]).stackFits = true ∧ (machineAt [] 0#32 [5#32, 5#32]).stack = [] ++ [5#32, 5#32] ∧
    (machineAt [] 0#32 [5#32]).stack.length < 2 := by decide
theorem witness_OrderComparisonsAreSigned :
    (machineAt [] 0#32 [0#32, -1#32]).stackFits = true ∧ (machineAt [] 0#32 [0#32, -1#32]).stack = [] ++ [0#32, -1#32] := by decide
theorem witness_ComparisonOutcomesExcludeEachOther :
    (machineAt [] 0#32 [4#32, 4#32]).stackFits = true ∧ (machineAt [] 0#32 [4#32, 4#32]).stack = [] ++ [4#32, 4#32] := by decide
-- both sides of the boundary: DROP_N of one more than there are, JUMP_IF_ZERO and MOD on one element, JUMP on none
theorem witness_StackUnderflowExactly :
    (machineAt [] 0#32 [4#32]).err = none ∧
    ([Instr.dropN 2#32, .jumpIfZero, .mod].map fun i => view (exec i (machineAt [] 0#32 [4#32]))) =
      List.replicate 3 (some (0, [4], some .stackUnderflow)) ∧
    view (exec .jump (machineAt [] 0#32 [])) = some (0, [], some .stackUnderflow) ∧
    view (exec (.dropN 1#32) (machineAt [] 0#32 [4#32])) = some (5, [], none) := by decide
theorem witness_AddressOutOfRangeExactly :
    (machineAt [] 0#32 [4#32]).err = none ∧
    ([Instr.loadAtDepth 1#32, .loadAtDepth (-1#32), .storeAtDepth 0#32].map fun i => view (exec i (machineAt [] 0#32 [4#32]))) =
      List.replicate 3 (some (0, [4], some .addressOutOfRange)) ∧
    view (exec (.storeAtDepth 0#32) (machineAt [] 0#32 [3#32, 4#32])) = some (5, [4], none) := by decide
theorem witness_MalformedProgramExactly :
    (let s := machineAt [0x11#8, 0#8, 0#8, 0#8] 0#32 []
     s.progLen ≤ Config.maxProgLen ∧ s.err = none ∧ s.progRead s.ip.toNat = some 0x11#8 ∧ s.progLen < s.ip.toNat + 5) ∧
    (let s := machineAt [0x21#8, 0x80#8, 0#8, 0#8, 0#8] 0#32 []
     s.progRead s.ip.toNat = some 0x21#8 ∧ s.progRead (s.ip.toNat + 1) = some 0x80#8 ∧ s.ip.toNat + 5 ≤ s.progLen) := by
  decide
theorem witness_DivideByZeroExactly :
    (machineAt [] 0#32 [0#32, 5#32]).err = none ∧ (machineAt [] 0#32 [0#32, 5#32]).stack = [] ++ [0#32, 5#32] ∧
    (machineAt [] 0#32 [5#32, 0#32]).stackFits = true ∧ (machineAt [] 0#32 [5#32, 0#32]).stack = [] ++ [5#32, 0#32] ∧
    (machineAt [] 0#32 [0#32]).stack.length < 2 ∧
    view (exec .div (machineAt [] 0#32 [5#32, 0#32])) = some (1, [0], none) := by decide
theorem witness_UnknownOpcodeExactly :
    (let s := machineAt [0x45#8] 0#32 [1#32]
     s.progLen ≤ Config.maxProgLen ∧ s.err = none ∧ s.progRead s.ip.toNat = some 0x45#8 ∧
      view (step s) = some (0, [1], some .unknownOpcode)) ∧
    (let s := machineAt [0x44#8] 0#32 [1#32, 2#32]
     s.progRead s.ip.toNat = some 0x44#8 ∧ view (step s) = some (1, [0], none)) := by decide
theorem witness_StackOverflowExactly :
    (atCap2 [] [1#32, 2#32]).err = none ∧ (atCap2 [] [1#32, 2#32]).stackFits = true ∧
    view (exec (.pushConst 3#32) (atCap2 [] [1#32, 2#32])) = some (0, [1, 2], some .stackOverflow) ∧
    view (exec .add (atCap2 [] [1#32, 2#32])) = some (1, [3], none) := by decide
theorem witness_FaultingStepChangesOnlyErr :
    (machineAt [1#8] 0#32 []).err = none ∧
    step (machineAt [1#8] 0#32 []) = .next { machineAt [1#8] 0#32 [] with err := some .stackUnderflow } := ⟨rfl, rfl⟩
theorem witness_FaultedMachineStaysFaulted :
    ({ machineAt [1#8] 0#32 [] with err := some .stackUnderflow } : State).progLen ≤ Config.maxProgLen ∧
    ({ machineAt [1#8] 0#32 [] with err := some .stackUnderflow } : State).err = some .stackUnderflow := by decide
theorem witness_FaultsRaisedByEachInstruction :
    (machineAt [] 0#32 [0#32, 7#32]).err = none ∧ (machineAt [] 0#32 [0#32, 7#32]).stackFits = true ∧
    exec .div (machineAt [] 0#32 [0#32, 7#32]) = .next { machineAt [] 0#32 [0#32, 7#32] with err := some .divideByZero } :=
  ⟨rfl, rfl, rfl⟩
theorem witness_StepKeepsTheInvariant :
    (atCap2 [0x10#8, 0#8, 0#8, 0#8, 3#8] [1#32]).inv = true ∧
    view (step (atCap2 [0x10#8, 0#8, 0#8, 0#8, 3#8] [1#32])) = some (5, [1, 3], none) := by decide
theorem witness_ConstructedMachineHoldsTheImage : ([0x10#8, 0#8] : List Byte).length ≤ Config.maxProgLen := by decide
theorem witness_ResetGivesTheResetValues :
    let s := machineAt [1#8] 0#32 [2#32]
    let t := machineAt [1#8] 1#32 []
    s.inv = true ∧ s.prog = t.prog ∧ s.progLen = t.progLen ∧ s.stackCap = t.stackCap := by decide
theorem witness_StateAfterReset : construct (some 2) [1#8] = .ok (atCap2 [1#8] []) := rfl
theorem witness_SequentialInstructionsAdvanceIp :
    let s := machineAt [0x10#8, 0#8, 0#8, 0#8, 3#8] 0#32 []
    s.progLen ≤ Config.maxProgLen ∧ s.status = .running ∧ s.fetchInstr = .instr (.pushConst 3#32) ∧
      view (step s) = some (5, [3], none) := by decide
-- a target above L, a step backwards, and a target equal to L
theorem witness_IpLeavesTheProgramOnlyByJumps :
    (let s := machineAt [1#8] 0#32 [2#32]
     s.ip.toNat ≤ s.progLen ∧ view (step s) = some (2, [], none)) ∧
    (let s := machineAt [0#8, 1#8] 1#32 [0#32]
     view (step s) = some (0, [], none)) ∧
    (let s := machineAt [1#8] 0#32 [1#32]
     s.progLen ≤ Config.maxProgLen ∧ s.err = none ∧ s.stack = [] ++ [1#32] ∧ (1#32 : Word).toNat = s.progLen) ∧
    construct (some 2) [1#8] = .ok (atCap2 [1#8] []) := ⟨by decide, by decide, by decide, rfl⟩
theorem witness_ProgramIsNeverWritten :
    view (Sys2Proof.core.run 2 (machineAt [0x10#8, 0#8, 0#8, 0#8, 3#8, 0#8] 0#32 [])) = some (6, [3], none) := by decide
theorem witness_InstructionsWriteOnlyIpStackAndErr : exec .halt (machineAt [0#8] 0#32 []) = .next (machineAt [0#8] 1#32 []) := rfl
theorem witness_ElementsBelowTheOperandsStay :
    (machineAt [] 0#32 [7#32, 8#32, 9#32]).err = none ∧ depthIndex 2 1#32 = 0 ∧
    exec (.storeAtDepth 1#32) (machineAt [] 0#32 [7#32, 8#32, 9#32]) = .next (machineAt [] 5#32 [9#32, 8#32]) ∧
    (machineAt [] 5#32 [9#32, 8#32]).err = none := ⟨rfl, by decide, rfl, rfl⟩
theorem witness_ResultPortReadsTheTop :
    ({ machineAt [] 0#32 [4#32] with err := some .divideByZero } : State).err = some .divideByZero ∧
    (machineAt [] 0#32 []).err = none ∧ (machineAt [] 0#32 []).stack = [] ∧ (machineAt [] 0#32 [3#32, 4#32]).stack = [3#32] ++ [4#32] := by
  decide
theorem witness_FaultCodesAreThoseOfTheList : (machineAt [] 0#32 []).errKind = (machineAt [1#8] 0#32 [1#32]).errKind := by decide
theorem witness_RunEndsAtTheFirstStateNotRunning :
    run 2 (machineAt [0x10#8, 0#8, 0#8, 0#8, 5#8, 0#8] 0#32 []) = .ended (machineAt [0x10#8, 0#8, 0#8, 0#8, 5#8, 0#8] 6#32 [5#32]) := by
  decide
theorem witness_PlacedInstructionRunsNext :
    Memory.wf State.reset.prog = true ∧ decodeTableWord 40 0x0500000010 = some (.pushConst 5#32) := by decide

end Sys2Proof.Tests
end

/-!
PROOFS of the family 20_memory: the program space is read big-endian (spec/20_memory.md R33) and never written (R43).
-/

namespace Sys2Proof

/-- The signed value of an assembled immediate: its big-endian number, with bit 7 of the first byte as the sign (R33). -/
theorem assembleImm_toInt (b1 b2 b3 b4 : Byte) :
    let u : Nat := b1.toNat * 2 ^ 24 + b2.toNat * 2 ^ 16 + b3.toNat * 2 ^ 8 + b4.toNat
    (assembleImm b1 b2 b3 b4).toInt = if u < 2 ^ 31 then (u : Int) else (u : Int) - 2 ^ 32 := by
  intro u
  have hu : (assembleImm b1 b2 b3 b4).toNat = u := assembleImm_toNat b1 b2 b3 b4
  rw [BitVec.toInt_eq_toNat_cond, hu]
  split <;> split <;> omega

/-- The four opcodes with an immediate, in the form in which the statements list them (R52, R55). -/
theorem selectOpcode_opi {op : Byte} {withImm : Word → Instr}
    (h : (op = 0x10#8 ∧ withImm = .pushConst) ∨ (op = 0x11#8 ∧ withImm = .loadAtDepth) ∨
      (op = 0x20#8 ∧ withImm = .storeAtDepth) ∨ (op = 0x21#8 ∧ withImm = .dropN)) :
    selectOpcode op = some (.opi withImm) := by
  rcases h with ⟨rfl, rfl⟩ | ⟨rfl, rfl⟩ | ⟨rfl, rfl⟩ | ⟨rfl, rfl⟩ <;> rfl

end Sys2Proof

namespace Sys2Proof.Machine

/-- Where all four immediate bytes exist, the fetch gives the opcode's instruction with the immediate they spell. -/
theorem State.fetchInstr_of_immediate {s : State} {op b1 b2 b3 b4 : Byte} {withImm : Word → Instr}
    (hop : s.progRead s.ip.toNat = some op) (hsel : selectOpcode op = some (.opi withImm))
    (h1 : s.progRead (s.ip.toNat + 1) = some b1) (h2 : s.progRead (s.ip.toNat + 2) = some b2)
    (h3 : s.progRead (s.ip.toNat + 3) = some b3) (h4 : s.progRead (s.ip.toNat + 4) = some b4) :
    s.fetchInstr = .instr (withImm (assembleImm b1 b2 b3 b4)) := by
  obtain ⟨op', hop', hcases⟩ := State.fetchInstr_cases (State.progRead_some hop)
  obtain rfl : op = op' := Option.some.inj (hop.symm.trans hop')
  have hlast := State.progRead_some h4
  rcases hcases with ⟨hnone, _⟩ | ⟨i, hi, _⟩ | ⟨withImm', hsel', ⟨hlt, _⟩ | ⟨_, c1, c2, c3, c4, g1, g2, g3, g4, hf⟩⟩
  · simp [hsel] at hnone
  · simp [hsel] at hi
  · omega
  · obtain rfl : withImm = withImm' := by simpa [hsel] using hsel'
    simp only [h1, h2, h3, h4, Option.some.injEq] at g1 g2 g3 g4
    rw [hf, g1, g2, g3, g4]

/-- Settles O4: the fetch gives the instruction with the assembled immediate, whose signed value is the formula. -/
theorem immediateIsBigEndianTwosComplement : Obligations.ImmediateIsBigEndianTwosComplement := by
  rintro s op withImm hform p b1 b2 b3 b4 rfl hop h1 h2 h3 h4
  exact ⟨assembleImm b1 b2 b3 b4, State.fetchInstr_of_immediate hop (selectOpcode_opi hform) h1 h2 h3 h4,
    assembleImm_toInt b1 b2 b3 b4⟩

/-- `t` has the inputs of `s`: the three that R10 lists beside the state. -/
structure SameInputs (s t : State) : Prop where
  prog : t.prog = s.prog
  progLen : t.progLen = s.progLen
  stackCap : t.stackCap = s.stackCap

theorem SameInputs.rfl {s : State} : SameInputs s s := ⟨Eq.refl _, Eq.refl _, Eq.refl _⟩

theorem SameInputs.trans {s t u : State} (h : SameInputs s t) (h' : SameInputs t u) : SameInputs s u :=
  ⟨h'.prog.trans h.prog, h'.progLen.trans h.progLen, h'.stackCap.trans h.stackCap⟩

/-- Where the inputs are the same, every address reads the same (R31). -/
theorem SameInputs.progRead {s t : State} (h : SameInputs s t) (a : Nat) : t.progRead a = s.progRead a := by
  simp [State.progRead, h.prog, h.progLen]

/-- No instruction writes an input. -/
theorem exec_keeps_inputs {i : Instr} {s t : State} (h : exec i s = .next t) : SameInputs s t := by
  rcases exec_cases h with ⟨ip, st, _, rfl⟩ | ⟨k, _, rfl⟩ <;> constructor <;> simp

/-- No step writes them either: one that stands still, runs an instruction, or takes a fault of the fetch. -/
theorem step_keeps_inputs {s t : State} (h : step s = .next t) : SameInputs s t := by
  obtain ⟨_, ⟨_, rfl⟩ | ⟨_, ⟨i, _, hexec⟩ | ⟨k, _, rfl⟩⟩⟩ := step_next h
  · exact .rfl
  · exact exec_keeps_inputs hexec
  · constructor <;> simp

/-- A run of `n + 1` steps is one step and then a run of `n`. -/
theorem core_run_succ {n : Nat} {s t : State} :
    core.run (n + 1) s = .next t ↔ ∃ u, step s = .next u ∧ core.run n u = .next t := by
  have hstep : core.step s = step s := rfl
  cases h : step s <;> simp [Host.Core.run, hstep, h]

/-- What every step keeps holds at the end of a run of any length if it holds at its start. -/
theorem core_run_keeps {P : State → Prop} (hstep : ∀ s t, P s → step s = .next t → P t) {n : Nat} {s t : State}
    (hs : P s) (h : core.run n s = .next t) : P t := by
  induction n generalizing s with
  | zero =>
    obtain rfl : s = t := Host.Outcome.next.inj h
    exact hs
  | succ n ih =>
    obtain ⟨u, hu, hrun⟩ := core_run_succ.1 h
    exact ih (hstep s u hs hu) hrun

/-- Settles O46: every step keeps the program, its length and the capacity, so every run does. -/
theorem programIsNeverWritten : Obligations.ProgramIsNeverWritten := by
  intro n s t hrun
  have hsame : SameInputs s t :=
    core_run_keeps (P := SameInputs s) (fun _ _ hs hstep => hs.trans (step_keeps_inputs hstep)) .rfl hrun
  exact ⟨hsame.prog, hsame.progLen, hsame.stackCap, hsame.progRead⟩

end Sys2Proof.Machine

/-!
PROOFS of the family 30_encoding: encoder and decoder are inverse to each other, and the first byte tells the length
(spec/30_encoding.md R50 to R57). Both directions go through one description of what decodes, `decode_eq_ok_iff`.
-/

namespace Sys2Proof

/-- What decodes: an OP opcode, or an OPI opcode with the four bytes of an immediate (R51, R52). -/
theorem decode_eq_ok_iff {b : Byte} {bytes rest : List Byte} {i : Instr} :
    decode (b :: bytes) = .ok (i, rest) ↔
      (selectOpcode b = some (.op i) ∧ bytes = rest) ∨
        ∃ withImm v, selectOpcode b = some (.opi withImm) ∧ i = withImm v ∧ bytes = immBytes v ++ rest := by
  constructor
  · intro h
    simp only [decode] at h
    split at h
    case h_1 => simp at h
    case h_2 j hsel =>
      obtain ⟨rfl, rfl⟩ : j = i ∧ bytes = rest := by simpa using h
      exact .inl ⟨hsel, rfl⟩
    case h_3 withImm hsel =>
      split at h
      case h_1 b1 b2 b3 b4 rest' =>
        obtain ⟨rfl, rfl⟩ : withImm (assembleImm b1 b2 b3 b4) = i ∧ rest' = rest := by simpa using h
        exact .inr ⟨withImm, _, hsel, rfl, by simp [immBytes_assembleImm]⟩
      case h_2 => simp at h
  · rintro (⟨hsel, rfl⟩ | ⟨withImm, v, hsel, rfl, rfl⟩)
    · simp [decode, hsel]
    · simp only [immBytes, List.cons_append, List.nil_append, decode, hsel, assembleImm_bytes]

/-- The instruction an OP opcode selects is encoded as that byte (R51). -/
theorem encode_of_selectOpcode_op {b : Byte} {i : Instr} (h : selectOpcode b = some (.op i)) : encode i = [b] := by
  have hrow := selectOpcode_cases h
  cases i <;> simp at hrow <;> subst hrow <;> rfl

/-- The OPI opcodes are the four that the statements list, each with its instruction (R52, R55). -/
theorem selectOpcode_opi_iff {b : Byte} {withImm : Word → Instr} :
    selectOpcode b = some (.opi withImm) ↔
      (b = 0x10#8 ∧ withImm = .pushConst) ∨ (b = 0x11#8 ∧ withImm = .loadAtDepth) ∨
        (b = 0x20#8 ∧ withImm = .storeAtDepth) ∨ (b = 0x21#8 ∧ withImm = .dropN) :=
  ⟨fun h => by simpa using selectOpcode_cases h, selectOpcode_opi⟩

/-- The instruction an OPI opcode makes of an immediate is encoded as that byte and the immediate's bytes (R52). -/
theorem encode_of_selectOpcode_opi {b : Byte} {withImm : Word → Instr} (h : selectOpcode b = some (.opi withImm))
    (v : Word) : encode (withImm v) = b :: immBytes v := by
  rcases selectOpcode_opi_iff.1 h with ⟨rfl, rfl⟩ | ⟨rfl, rfl⟩ | ⟨rfl, rfl⟩ | ⟨rfl, rfl⟩ <;> rfl

/-- Settles O1: each instruction's opcode selects it, alone or with its immediate. -/
theorem encodedInstructionsDecodeBack : Obligations.EncodedInstructionsDecodeBack := by
  intro i rest
  cases i with
  | pushConst v | loadAtDepth v | storeAtDepth v | dropN v =>
    exact decode_eq_ok_iff.2 (.inr ⟨_, v, rfl, rfl, rfl⟩)
  | _ => exact decode_eq_ok_iff.2 (.inl ⟨rfl, rfl⟩)

/-- Settles O2: what an opcode selects is encoded with that opcode, alone or before the immediate's bytes. -/
theorem decodedBytesAreTheEncoding : Obligations.DecodedBytesAreTheEncoding := by
  intro bs i rest h
  cases bs with
  | nil => simp [decode] at h
  | cons b bytes =>
    obtain ⟨hsel, rfl⟩ | ⟨withImm, v, hsel, rfl, rfl⟩ := decode_eq_ok_iff.1 h
    · simp [encode_of_selectOpcode_op hsel]
    · simp [encode_of_selectOpcode_opi hsel]

/-- Every instruction is encoded in as many bytes as its length says, and its opcode byte alone tells how many (R53). -/
theorem encodedLength (i : Instr) : Laws.EncodedLength.Statement i := by
  cases i <;> exact ⟨_, _, rfl, rfl, rfl⟩

/-- Four opcodes have an immediate, no other byte has (R52, R56). -/
theorem immediateBytes_eq (b : Byte) :
    immediateBytes b = if b = 0x10#8 ∨ b = 0x11#8 ∨ b = 0x20#8 ∨ b = 0x21#8 then 4 else 0 := by
  split
  case isTrue h => rcases h with rfl | rfl | rfl | rfl <;> rfl
  case isFalse hnot =>
    unfold immediateBytes
    split
    case h_1 hsel => have := selectOpcode_opi_iff.1 hsel; tauto
    case h_2 => rfl

/-- Settles O5: the bytes are those of the encoding (O2), whose first byte calls for its immediate bytes. -/
theorem firstByteAloneGivesTheLength : Obligations.FirstByteAloneGivesTheLength := by
  intro b bytes i rest h
  obtain ⟨b', imm, henc, himm, hlen⟩ := encodedLength i
  obtain ⟨rfl, rfl⟩ : b = b' ∧ bytes = imm ++ rest := by simpa [henc] using decodedBytesAreTheEncoding _ _ _ h
  rw [immediateBytes_eq] at himm
  constructor
  · simp only [List.length_cons, List.length_append]
    omega
  · rw [← hlen, himm]
    split <;> rfl

/-- Settles O3: every row is an instance of the round trip (O1), its bytes being the encoding of its instruction. -/
theorem opcodeMapRowsDecode : Obligations.OpcodeMapRowsDecode := by
  have row (i : Instr) : decode (encode i) = .ok (i, []) := by
    simpa using encodedInstructionsDecodeBack i []
  exact ⟨row .halt, row .jump, row .jumpIfZero, row (.pushConst 305419896#32), row (.loadAtDepth 256#32),
    row (.storeAtDepth 10#32), row (.dropN (-1#32)), row .add, row .sub, row .mul, row .div, row .mod, row .eq, row .gt, row .lt, row .ge,
    row .le⟩

end Sys2Proof

/-!
PROOFS of the family 40_control: HALT ends a run by the comparison `ip >= L` (spec/40_control.md R73), and a machine that
does not run stands still (R70).
-/

namespace Sys2Proof.Machine

/-- A machine that has halted or faulted stands still (R70 lines 1 and 2). -/
theorem step_of_not_running {s : State} (hl : s.progLen ≤ Config.maxProgLen) (hs : s.status ≠ .running) :
    step s = .next s := by
  rcases step_cases (progLenOk_iff.2 hl) with ⟨_, hstep⟩ | ⟨hrun, _⟩
  · exact hstep
  · exact absurd hrun hs

/-- HALT moves `ip` to `L`, whatever the state (R73). -/
theorem exec_halt (s : State) : exec .halt s = .next (s.moveTo (BitVec.ofNat 32 s.progLen) s.stack) :=
  exec_eq_commit .halt s

/-- An admitted `L` fits the 32 bits of `ip` (R2, D2). -/
theorem toNat_ofNat_of_le_maxProgLen {n : Nat} (h : n ≤ Config.maxProgLen) : (BitVec.ofNat 32 n).toNat = n :=
  Nat.mod_eq_of_lt (h.trans_lt (by decide))

/-- Settles O12: HALT moves `ip` to `L`, which fits `ip`, so the state it answers has halted unless it has a fault. -/
theorem haltSetsIpToProgramLength : Obligations.HaltSetsIpToProgramLength := by
  refine ⟨encodedInstructionsDecodeBack .halt, fun s hl => ⟨_, exec_halt s, ?_⟩⟩
  have hip : (s.moveTo (BitVec.ofNat 32 s.progLen) s.stack).ip.toNat = s.progLen := toNat_ofNat_of_le_maxProgLen hl
  refine ⟨hip, rfl, fun herr => ?_⟩
  have hhalted : (s.moveTo (BitVec.ofNat 32 s.progLen) s.stack).status = .halted :=
    State.status_halted.2 ⟨herr, hip.ge⟩
  exact ⟨hhalted, step_of_not_running hl (by simp [hhalted])⟩

end Sys2Proof.Machine

/-!
PROOFS of the family 42_arith: DIV and MOD test their divisor, the second popped value, and nothing else (spec/42_arith.md
R98). First what each shared operation fails with, as an `↔` (the tests of R119); from these, which instruction raises
DivideByZero.
-/

namespace Sys2Proof.Machine

theorem except_bind_eq_error_iff {α β : Type} {x : Except FaultKind α} {f : α → Except FaultKind β} {k : FaultKind} :
    (x >>= f) = .error k ↔ x = .error k ∨ ∃ a, x = .ok a ∧ f a = .error k := by
  cases x <;> simp

theorem pop_eq_error_iff {st : List Word} {k : FaultKind} : pop st = .error k ↔ k = .stackUnderflow ∧ st = [] := by
  rcases pop_cases st with ⟨rfl, hp⟩ | ⟨below, v, rfl, hp⟩ <;> simp [hp, eq_comm (a := k)]

theorem push_eq_error_iff {cap : Option Nat} {v : Word} {st : List Word} {k : FaultKind} :
    push cap v st = .error k ↔ k = .stackOverflow ∧ cap = some st.length := by
  rcases push_cases cap v st with ⟨rfl, hp⟩ | ⟨hc, hp⟩
  · simp [hp, eq_comm (a := k)]
  · simp [hp, hc]

theorem readDepth_eq_error_iff {st : List Word} {d : Word} {k : FaultKind} :
    readDepth st d = .error k ↔ k = .addressOutOfRange ∧ (d.toInt < 0 ∨ (st.length : Int) ≤ d.toInt) := by
  rcases readDepth_cases st d with ⟨hd, hr⟩ | ⟨h0, h1, v, _, hr⟩
  · simp [hr, hd, eq_comm (a := k)]
  · simp [hr, h0, h1]

theorem writeDepth_eq_error_iff {st : List Word} {d v : Word} {k : FaultKind} :
    writeDepth st d v = .error k ↔ k = .addressOutOfRange ∧ (d.toInt < 0 ∨ (st.length : Int) ≤ d.toInt) := by
  rcases writeDepth_cases st d v with ⟨hd, hw⟩ | ⟨h0, h1, hw⟩
  · simp [hw, hd, eq_comm (a := k)]
  · simp [hw, h0, h1]

theorem dropTop_eq_error_iff {n : Nat} {st : List Word} {k : FaultKind} :
    dropTop n st = .error k ↔ k = .stackUnderflow ∧ st.length < n := by
  rcases dropTop_cases n st with ⟨hn, hd⟩ | ⟨hn, hd⟩
  · simp [hd, hn, eq_comm (a := k)]
  · simp [hd, hn]

/-- A stack gives its two operands in one way only. -/
theorem two_operands_inj {below below' : List Word} {b b' a a' : Word} :
    below ++ [b, a] = below' ++ [b', a'] ↔ below = below' ∧ b = b' ∧ a = a' := by
  constructor
  · intro h
    simpa using List.append_inj' h rfl
  · rintro ⟨rfl, rfl, rfl⟩
    rfl

/-- The template fails before, in or after the check on the values: too few operands, the check's own error, or a full
stack (R90). -/
theorem twoOperand_eq_error_iff {s : State} {f : Word → Word → Except FaultKind Word} {k : FaultKind} :
    twoOperand s f = .error k ↔
      (k = .stackUnderflow ∧ s.stack.length < 2) ∨
        ∃ below b a, s.stack = below ++ [b, a] ∧
          (f a b = .error k ∨ (∃ v, f a b = .ok v) ∧ k = .stackOverflow ∧ s.stackCap = some below.length) := by
  by_cases h : s.stack.length < 2
  · have hno (below : List Word) (b a : Word) : s.stack ≠ below ++ [b, a] := by
      intro hs
      simp [hs] at h
    simp [twoOperand_short f h, h, hno, eq_comm (a := k)]
  · obtain ⟨below, b, a, hs⟩ := exists_two_operands (Nat.le_of_not_lt h)
    rw [twoOperand_concat f hs]
    simp [except_bind_eq_error_iff, push_eq_error_iff, hs, two_operands_inj]

theorem divWord_eq_error_iff {a b : Word} {k : FaultKind} : divWord a b = .error k ↔ k = .divideByZero ∧ b = 0#32 := by
  by_cases hb : b = 0#32 <;> simp [divWord, hb, eq_comm (a := k)]

theorem modWord_eq_error_iff {a b : Word} {k : FaultKind} : modWord a b = .error k ↔ k = .divideByZero ∧ b = 0#32 := by
  by_cases hb : b = 0#32 <;> simp [modWord, hb, eq_comm (a := k)]

/-- Only DIV and MOD can have the error DivideByZero, and their divisor is then 0 (R98). -/
theorem effect_eq_divideByZero_iff {i : Instr} {s : State} :
    effect i s = .error .divideByZero ↔
      (i = .div ∨ i = .mod) ∧ ∃ (below : List Word) (a : Word), s.stack = below ++ [0#32, a] := by
  cases i with
  | div => simp [effect, twoOperand_eq_error_iff, divWord_eq_error_iff]
  | mod => simp [effect, twoOperand_eq_error_iff, modWord_eq_error_iff]
  | add | sub | mul | eq | gt | lt | ge | le => simp [effect, twoOperand_eq_error_iff]
  | halt => simp [effect]
  | dropN n =>
    rw [effect_dropN]
    split <;> simp [except_bind_eq_error_iff, dropTop_eq_error_iff]
  | jump | jumpIfZero | pushConst | loadAtDepth | storeAtDepth =>
    simp [effect, except_bind_eq_error_iff, pop_eq_error_iff, push_eq_error_iff, readDepth_eq_error_iff,
      writeDepth_eq_error_iff, pure, Except.pure]

/-- Two operands on a stack within its capacity leave room for the one result (R90, R117). -/
theorem twoOperand_completes {s : State} {below : List Word} {b a v : Word} {f : Word → Word → Except FaultKind Word}
    (hfits : s.stackFits = true) (hs : s.stack = below ++ [b, a]) (hf : f a b = .ok v) :
    twoOperand s f = .ok (s.afterOp, below ++ [v]) := by
  have hroom : s.stackCap ≠ some below.length := by
    intro hc
    have := State.stackFits_iff.1 hfits _ hc
    simp [hs] at this
  rw [twoOperand_concat f hs, hf, except_bind_ok, push_ok hroom, except_bind_ok]

theorem divWord_zero {b : Word} (hb : b ≠ 0#32) : divWord 0#32 b = .ok 0#32 := by
  simp [divWord, hb, wrap32]

theorem modWord_zero {b : Word} (hb : b ≠ 0#32) : modWord 0#32 b = .ok 0#32 := by
  simp [modWord, hb, wrap32]

/-- DIV and MOD are the template with an `f` that gives 0 for the dividend 0 over a divisor other than 0 (R94, R95). -/
theorem effect_div_or_mod {i : Instr} (hi : i = .div ∨ i = .mod) :
    ∃ f, (∀ s, effect i s = twoOperand s f) ∧ ∀ b, b ≠ 0#32 → f 0#32 b = .ok 0#32 := by
  rcases hi with rfl | rfl
  · exact ⟨divWord, fun _ => rfl, fun _ => divWord_zero⟩
  · exact ⟨modWord, fun _ => rfl, fun _ => modWord_zero⟩

/-- Settles O33: the divisor is the only value DIV and MOD test, and they test it after both pops. -/
theorem divideByZeroExactly : Obligations.DivideByZeroExactly := by
  refine ⟨fun i s he => (exec_raises_iff he).trans effect_eq_divideByZero_iff, fun i s hi => ?_⟩
  obtain ⟨f, heffect, hzero⟩ := effect_div_or_mod hi
  rw [exec_eq_commit, heffect]
  constructor
  · intro below b hfits hs hb
    rw [twoOperand_completes hfits hs (hzero b hb)]
    rfl
  · intro hlen
    rw [twoOperand_short f hlen]
    exact ⟨s.raise .stackUnderflow, rfl, rfl⟩

end Sys2Proof.Machine

/-!
PROOFS of the family 43_compare: EQ compares its two operands as words, by the two-operand template (spec/43_compare.md
R100). The model compares signed values; a word has one signed value.
-/

namespace Sys2Proof.Machine

/-- Words with the same signed value are the same word, so EQ's outcome is the equality of the words (R100). -/
theorem truthWord_toInt_eq (a b : Word) : truthWord (decide (a.toInt = b.toInt)) = if a = b then 1#32 else 0#32 := by
  simp [truthWord, BitVec.toInt_inj]

/-- EQ's effect is the template with an outcome for every pair of operands (R90, R100). -/
theorem effect_eq (s : State) : effect .eq s = twoOperand s fun a b => .ok (if a = b then 1#32 else 0#32) := by
  simp only [effect, truthWord_toInt_eq]

/-- Settles O27: EQ is encoded as the one byte 0x40 (O1), and the template pushes its outcome or lacks operands. -/
theorem eqPushesOneForEqualValues : Obligations.EqPushesOneForEqualValues := by
  refine ⟨encodedInstructionsDecodeBack .eq, fun s below b a hfits hs => ?_, fun s hlen => ?_⟩
  · rw [exec_eq_commit, effect_eq, twoOperand_completes hfits hs rfl]
    rfl
  · rw [exec_eq_commit, effect_eq, twoOperand_short _ hlen]
    exact ⟨s.raise .stackUnderflow, rfl, rfl⟩

end Sys2Proof.Machine

/-!
PROOFS of the family 60_exceptions: which fault each instruction and each step raises, and when (spec/60_exceptions.md
R111 to R115). `effect_eq_error_iff` says it once for the 17 instructions, `State.fetchInstr_raises_iff` for the fetch,
and `step_raises_iff` joins the two.
-/

namespace Sys2Proof.Machine

theorem readDepth_completes_iff {st : List Word} {d : Word} :
    (∃ v, readDepth st d = .ok v) ↔ 0 ≤ d.toInt ∧ d.toInt < st.length := by
  rcases readDepth_cases st d with ⟨hd, hr⟩ | ⟨h0, h1, v, _, hr⟩
  · simp only [hr, reduceCtorEq, exists_false, false_iff]
    omega
  · simp [hr, h0, h1]

theorem divWord_completes_iff {a b : Word} : (∃ v, divWord a b = .ok v) ↔ b ≠ 0#32 := by
  by_cases hb : b = 0#32 <;> simp [divWord, hb]

theorem modWord_completes_iff {a b : Word} : (∃ v, modWord a b = .ok v) ↔ b ≠ 0#32 := by
  by_cases hb : b = 0#32 <;> simp [modWord, hb]

/-- JUMP_IF_ZERO's two pops fail exactly on fewer than two elements (R111). -/
theorem effect_jumpIfZero_eq_error_iff {s : State} {k : FaultKind} :
    effect .jumpIfZero s = .error k ↔ k = .stackUnderflow ∧ s.stack.length < 2 := by
  rcases pop_cases s.stack with ⟨hs, hp⟩ | ⟨st, target, hs, hp⟩
  · simp [effect, hs, eq_comm (a := k)]
  · rcases pop_cases st with ⟨rfl, hp'⟩ | ⟨below, cond, rfl, hp'⟩
    · simp [effect, hp, congrArg List.length hs, eq_comm (a := k)]
    · simp [effect, hp, hp', congrArg List.length hs, pure, Except.pure]

/-- STORE_AT_DEPTH pops, and then tests the depth against the stack that remains (R111, R112). -/
theorem effect_storeAtDepth_eq_error_iff {d : Word} {s : State} {k : FaultKind} :
    effect (.storeAtDepth d) s = .error k ↔
      (k = .stackUnderflow ∧ s.stack = []) ∨
        (k = .addressOutOfRange ∧ s.stack ≠ [] ∧ (d.toInt < 0 ∨ (s.stack.length : Int) - 1 ≤ d.toInt)) := by
  rcases pop_cases s.stack with ⟨hs, hp⟩ | ⟨below, v, hs, hp⟩
  · simp [effect, hs, eq_comm (a := k)]
  · simp [effect, hs, except_bind_eq_error_iff, writeDepth_eq_error_iff, pure, Except.pure]

/-- DROP_N tests the sign of its count, and then the stack (R111, R113). -/
theorem effect_dropN_eq_error_iff {n : Word} {s : State} {k : FaultKind} :
    effect (.dropN n) s = .error k ↔
      (k = .malformedProgram ∧ n.toInt < 0) ∨
        (k = .stackUnderflow ∧ 0 ≤ n.toInt ∧ (s.stack.length : Int) < n.toInt) := by
  rw [effect_dropN]
  by_cases hn : n.toInt < 0
  · simp [hn, eq_comm (a := k)]
  · simp [hn, except_bind_eq_error_iff, dropTop_eq_error_iff, Int.lt_toNat, Int.not_lt.1 hn]

/-- The faults of each instruction and the tests that raise them, in the order of R119's table. -/
theorem effect_eq_error_iff {i : Instr} {s : State} {k : FaultKind} :
    effect i s = .error k ↔
      match i with
      | .halt => False
      | .jump => k = .stackUnderflow ∧ s.stack = []
      | .jumpIfZero => k = .stackUnderflow ∧ s.stack.length < 2
      | .pushConst _ => k = .stackOverflow ∧ s.stackCap = some s.stack.length
      | .loadAtDepth d =>
        (k = .addressOutOfRange ∧ (d.toInt < 0 ∨ (s.stack.length : Int) ≤ d.toInt)) ∨
          (0 ≤ d.toInt ∧ d.toInt < s.stack.length) ∧ k = .stackOverflow ∧ s.stackCap = some s.stack.length
      | .storeAtDepth d =>
        (k = .stackUnderflow ∧ s.stack = []) ∨
          (k = .addressOutOfRange ∧ s.stack ≠ [] ∧ (d.toInt < 0 ∨ (s.stack.length : Int) - 1 ≤ d.toInt))
      | .dropN n =>
        (k = .malformedProgram ∧ n.toInt < 0) ∨
          (k = .stackUnderflow ∧ 0 ≤ n.toInt ∧ (s.stack.length : Int) < n.toInt)
      | .div | .mod =>
        (k = .stackUnderflow ∧ s.stack.length < 2) ∨
          ∃ below b a, s.stack = below ++ [b, a] ∧
            ((k = .divideByZero ∧ b = 0#32) ∨ b ≠ 0#32 ∧ k = .stackOverflow ∧ s.stackCap = some below.length)
      | .add | .sub | .mul | .eq | .gt | .lt | .ge | .le =>
        (k = .stackUnderflow ∧ s.stack.length < 2) ∨
          ∃ below b a, s.stack = below ++ [b, a] ∧ k = .stackOverflow ∧ s.stackCap = some below.length := by
  cases i with
  | halt => simp [effect]
  | jump => simp [effect, except_bind_eq_error_iff, pop_eq_error_iff, pure, Except.pure]
  | jumpIfZero => exact effect_jumpIfZero_eq_error_iff
  | pushConst v => simp [effect, except_bind_eq_error_iff, push_eq_error_iff, pure, Except.pure]
  | loadAtDepth d =>
    simp [effect, except_bind_eq_error_iff, readDepth_eq_error_iff, ← readDepth_completes_iff, push_eq_error_iff,
      pure, Except.pure]
  | storeAtDepth d => exact effect_storeAtDepth_eq_error_iff
  | dropN n => exact effect_dropN_eq_error_iff
  | div => simp only [effect, twoOperand_eq_error_iff, divWord_eq_error_iff, divWord_completes_iff]
  | mod => simp only [effect, twoOperand_eq_error_iff, modWord_eq_error_iff, modWord_completes_iff]
  | add | sub | mul | eq | gt | lt | ge | le => simp [effect, twoOperand_eq_error_iff]

/-- Settles O30: each instruction's clause in the table of its faults, read for StackUnderflow. -/
theorem stackUnderflowExactly : Obligations.StackUnderflowExactly := by
  refine ⟨pop_nil, fun i s he => ((exec_raises_iff he).trans effect_eq_error_iff).trans ?_⟩
  cases i <;> simp

/-- Settles O31: each instruction's clause in the table of its faults, read for AddressOutOfRange. -/
theorem addressOutOfRangeExactly : Obligations.AddressOutOfRangeExactly := by
  refine fun i s he => ((exec_raises_iff he).trans effect_eq_error_iff).trans ?_
  cases i <;> simp

/-- Of the instructions, only DROP_N raises MalformedProgram, and only for a negative count (R113). -/
theorem effect_eq_malformedProgram_iff {i : Instr} {s : State} :
    effect i s = .error .malformedProgram ↔ ∃ n, i = .dropN n ∧ n.toInt < 0 := by
  rw [effect_eq_error_iff]
  cases i <;> simp

/-- No instruction raises UnknownOpcode; it is the decoder's (R115). -/
theorem effect_ne_unknownOpcode {i : Instr} {s : State} : effect i s ≠ .error .unknownOpcode := by
  rw [Ne, effect_eq_error_iff]
  cases i <;> simp

/-- The faults of fetch and decode: an undefined opcode, and an immediate that runs past the end (R56, R72). -/
theorem State.fetchInstr_raises_iff {s : State} {op : Byte} {k : FaultKind} (hop : s.progRead s.ip.toNat = some op) :
    s.fetchInstr = .raises k ↔
      (k = .unknownOpcode ∧ selectOpcode op = none) ∨
        (k = .malformedProgram ∧ (∃ withImm, selectOpcode op = some (.opi withImm)) ∧ s.progLen < s.ip.toNat + 5) := by
  obtain ⟨op', hop', hcases⟩ := State.fetchInstr_cases (State.progRead_some hop)
  obtain rfl : op = op' := Option.some.inj (hop.symm.trans hop')
  rcases hcases with ⟨hsel, hf⟩ | ⟨i, hsel, hf⟩ | ⟨withImm, hsel, ⟨hlt, hf⟩ | ⟨hle, _, _, _, _, _, _, _, _, hf⟩⟩
  · simp [hf, hsel, eq_comm (a := k)]
  · simp [hf, hsel]
  · simp [hf, hsel, hlt, eq_comm (a := k)]
  · simp [hf, hsel, hle]

/-- A running step raises `k` in the fetch or in the instruction fetched (R70). -/
theorem step_raises_iff {s : State} {k : FaultKind} (hl : s.progLen ≤ Config.maxProgLen) (he : s.err = none)
    (hip : s.ip.toNat < s.progLen) :
    (∃ t, step s = .next t ∧ t.err = some k) ↔
      s.fetchInstr = .raises k ∨ ∃ i, s.fetchInstr = .instr i ∧ effect i s = .error k := by
  rcases step_cases (progLenOk_iff.2 hl) with ⟨hr, _⟩ | ⟨_, ⟨i, hf, hstep⟩ | ⟨k', hf, hstep⟩ | ⟨hf, hstep⟩⟩
  · exact absurd (State.status_running.2 ⟨he, hip⟩) hr
  · simp [hstep, hf, exec_raises_iff he]
  · simp [hstep, hf]
  · simp [hstep, hf]

/-- The sign of an assembled immediate is bit 7 of its first byte (R33). -/
theorem assembleImm_neg_iff (b1 b2 b3 b4 : Byte) : (assembleImm b1 b2 b3 b4).toInt < 0 ↔ 128 ≤ b1.toNat := by
  have h2 := b2.isLt
  have h3 := b3.isLt
  have h4 := b4.isLt
  have h1 := b1.isLt
  rw [assembleImm_toInt]
  split <;> omega

/-- The fetch gives a DROP_N with a negative count exactly for its opcode before four bytes of which the first has bit 7
set (R33, R55). -/
theorem State.fetchInstr_dropN_neg_iff {s : State} {op : Byte} (hop : s.progRead s.ip.toNat = some op) :
    (∃ n, s.fetchInstr = .instr (.dropN n) ∧ n.toInt < 0) ↔
      op = 0x21#8 ∧ s.ip.toNat + 5 ≤ s.progLen ∧
        ∃ b1 : Byte, s.progRead (s.ip.toNat + 1) = some b1 ∧ 128 ≤ b1.toNat := by
  constructor
  · rintro ⟨n, hn, hneg⟩
    obtain ⟨op', hop', hcases⟩ := State.fetchInstr_cases (State.progRead_some hop)
    obtain rfl : op = op' := Option.some.inj (hop.symm.trans hop')
    rcases hcases with ⟨_, hf⟩ | ⟨i, hsel, hf⟩ | ⟨withImm, hsel, ⟨_, hf⟩ | ⟨hle, b1, b2, b3, b4, h1, _, _, _, hf⟩⟩
    · simp [hf] at hn
    · obtain rfl : i = .dropN n := by simpa [hf] using hn
      simpa using selectOpcode_cases hsel
    · simp [hf] at hn
    · have himm : withImm (assembleImm b1 b2 b3 b4) = .dropN n := by simpa [hf] using hn
      rcases selectOpcode_opi_iff.1 hsel with ⟨_, rfl⟩ | ⟨_, rfl⟩ | ⟨_, rfl⟩ | ⟨rfl, rfl⟩ <;> simp at himm
      subst himm
      exact ⟨rfl, hle, b1, h1, (assembleImm_neg_iff b1 b2 b3 b4).1 hneg⟩
  · rintro ⟨rfl, hle, b1, h1, hb1⟩
    have hread (j : Nat) (hj : j < 5) := State.progRead_lt (s := s) (a := s.ip.toNat + j) (by omega)
    exact ⟨_, State.fetchInstr_of_immediate hop (withImm := .dropN) rfl h1 (hread 2 (by decide)) (hread 3 (by decide))
      (hread 4 (by decide)), (assembleImm_neg_iff ..).2 hb1⟩

/-- Settles O32: the fetch raises it for a truncated immediate, and DROP_N for a negative count. -/
theorem malformedProgramExactly : Obligations.MalformedProgramExactly := by
  intro s op hl he hop
  rw [step_raises_iff hl he (State.progRead_some hop), State.fetchInstr_raises_iff hop]
  refine or_congr ?_ ?_
  · simp [selectOpcode_opi_iff, exists_or]
  · rw [← State.fetchInstr_dropN_neg_iff hop]
    simp only [effect_eq_malformedProgram_iff]
    exact ⟨fun ⟨_, hf, n, hi, hneg⟩ => ⟨n, hi ▸ hf, hneg⟩, fun ⟨n, hf, hneg⟩ => ⟨_, hf, n, rfl, hneg⟩⟩

/-- The bytes that are no opcode, as the five ranges of R56. -/
theorem selectOpcode_eq_none_iff {op : Byte} :
    selectOpcode op = none ↔
      (0x03 ≤ op.toNat ∧ op.toNat ≤ 0x0F) ∨ (0x12 ≤ op.toNat ∧ op.toNat ≤ 0x1F) ∨
        (0x22 ≤ op.toNat ∧ op.toNat ≤ 0x2F) ∨ (0x35 ≤ op.toNat ∧ op.toNat ≤ 0x3F) ∨ 0x45 ≤ op.toNat := by
  unfold selectOpcode
  split
  case h_18 =>
    simp only [imp_false, true_iff] at *
    bv_omega
  all_goals simp

/-- Settles O34: only the fetch raises it, for a byte that selects nothing. -/
theorem unknownOpcodeExactly : Obligations.UnknownOpcodeExactly := by
  intro s op hl he hop
  rw [step_raises_iff hl he (State.progRead_some hop), State.fetchInstr_raises_iff hop, ← selectOpcode_eq_none_iff]
  simp [effect_ne_unknownOpcode]

end Sys2Proof.Machine

/-!
PROOFS of the family 70_reset_and_hazards: the reset values of a machine (spec/70_reset_and_hazards.md R141).
-/

namespace Sys2Proof.Machine

@[simp] theorem State.placeBytes_ip (s : State) (a : Nat) (bytes : List Byte) : (s.placeBytes a bytes).ip = s.ip := rfl
@[simp] theorem State.placeBytes_stack (s : State) (a : Nat) (bytes : List Byte) :
    (s.placeBytes a bytes).stack = s.stack := rfl
@[simp] theorem State.placeBytes_err (s : State) (a : Nat) (bytes : List Byte) :
    (s.placeBytes a bytes).err = s.err := rfl

/-- Construction succeeds exactly on an image of an admitted length, with the image placed in the machine after reset
(R2, R142). -/
theorem construct_eq_ok_iff {cap : Option Nat} {image : List Byte} {s : State} :
    construct cap image = .ok s ↔
      imageOk image = true ∧ s = ({ State.reset with stackCap := cap } : State).placeBytes 0 image := by
  unfold construct
  split
  next hok => simp [hok, eq_comm (a := s)]
  next hlong => simp [hlong]

/-- Settles O43: a constructed machine is the machine after reset with an image placed, and placing bytes touches none
of the three fields. -/
theorem stateAfterReset : Obligations.StateAfterReset := by
  refine ⟨rfl, rfl, rfl, fun cap image s h => ?_⟩
  obtain ⟨_, rfl⟩ := construct_eq_ok_iff.1 h
  simp [State.reset]

end Sys2Proof.Machine

/-!
PROOFS of the family other: how an instruction and a step end (spec/40_control.md R70, spec/60_exceptions.md R120
to R122), and the invariant that every step keeps (spec/10_state.md sections 1 and 4).
-/

namespace Sys2Proof.Machine

theorem exec_of_effect_ok {i : Instr} {s : State} {ip : BitVec 32} {st : List Word} (h : effect i s = .ok (ip, st)) :
    exec i s = .next (s.moveTo ip st) := by
  rw [exec_eq_commit, h, State.commit_ok]

theorem exec_of_effect_error {i : Instr} {s : State} {k : FaultKind} (h : effect i s = .error k) :
    exec i s = .next (s.raise k) := by
  rw [exec_eq_commit, h, State.commit_error]

/-- An instruction that answers a state without a fault has completed: its effect has no error (R120). -/
theorem exec_completes {i : Instr} {s t : State} (h : exec i s = .next t) (ht : t.err = none) :
    ∃ ip st, effect i s = .ok (ip, st) ∧ t = s.moveTo ip st := by
  rcases exec_cases h with hok | ⟨k, _, rfl⟩
  · exact hok
  · simp at ht

/-- A completed instruction leaves the stack no longer than it was, or one longer where it was not at capacity. -/
theorem effect_ok_length {i : Instr} {s : State} {ip : BitVec 32} {st : List Word} (h : effect i s = .ok (ip, st)) :
    st.length ≤ s.stack.length ∨ (s.stackCap ≠ some s.stack.length ∧ st.length = s.stack.length + 1) := by
  have h := effect_ok h
  cases i with
  | halt => exact .inl (by simp [h.2])
  | jump => exact .inl (by simp [h])
  | jumpIfZero =>
    obtain ⟨cond, target, hs, _⟩ := h
    exact .inl (by simp [hs])
  | pushConst v =>
    obtain ⟨hroom, rfl, _⟩ := h
    exact .inr ⟨hroom, by simp⟩
  | loadAtDepth d =>
    obtain ⟨v, _, hroom, rfl, _⟩ := h
    exact .inr ⟨hroom, by simp⟩
  | storeAtDepth d =>
    obtain ⟨below, v, hs, _, _, rfl, _⟩ := h
    exact .inl (by simp [hs])
  | dropN n =>
    obtain ⟨_, _, rfl, _⟩ := h
    exact .inl (by simp)
  | add | sub | mul | div | mod | eq | gt | lt | ge | le =>
    obtain ⟨below, b, a, v, hs, _, rfl, _⟩ := h
    exact .inl (by simp [hs])

/-- A completed instruction leaves the stack within its capacity (R10, R15). -/
theorem effect_ok_stackFits {i : Instr} {s : State} {ip : BitVec 32} {st : List Word} (hfits : s.stackFits = true)
    (h : effect i s = .ok (ip, st)) : (s.moveTo ip st).stackFits = true := by
  rw [State.stackFits_iff] at hfits ⊢
  intro cap hcap
  simp only [State.moveTo_stackCap, State.moveTo_stack] at hcap ⊢
  have hle := hfits cap hcap
  rcases effect_ok_length h with hlen | ⟨hroom, hlen⟩
  · omega
  · have hne : cap ≠ s.stack.length := fun he => hroom (he ▸ hcap)
    omega

/-- Taking a fault with `ip` at an opcode byte of the program keeps the invariant (R118, R122). -/
theorem State.raise_inv {s : State} (hinv : s.inv = true) (hip : s.ip.toNat < s.progLen) (k : FaultKind) :
    (s.raise k).inv = true := by
  obtain ⟨hwf, hbelow, hl, hfits, _⟩ := State.inv_iff.1 hinv
  exact State.inv_iff.2 ⟨hwf, hbelow, hl, hfits, .inr hip⟩

/-- An instruction of a running machine keeps the invariant. -/
theorem exec_keeps_inv {i : Instr} {s t : State} (hinv : s.inv = true) (hrun : s.status = .running)
    (h : exec i s = .next t) : t.inv = true := by
  obtain ⟨herr, hip⟩ := State.status_running.1 hrun
  obtain ⟨hwf, hbelow, hl, hfits, _⟩ := State.inv_iff.1 hinv
  rcases exec_cases h with ⟨ip, st, heffect, rfl⟩ | ⟨k, _, rfl⟩
  · exact State.inv_iff.2 ⟨hwf, hbelow, hl, effect_ok_stackFits hfits heffect, .inl herr⟩
  · exact State.raise_inv hinv hip k

/-- Settles O40: a step stands still, runs an instruction or takes a fault of the fetch, and each keeps the invariant. -/
theorem stepKeepsTheInvariant : Obligations.StepKeepsTheInvariant := by
  intro s t hinv hstep
  obtain ⟨_, ⟨_, rfl⟩ | ⟨hrun, ⟨i, _, hexec⟩ | ⟨k, _, rfl⟩⟩⟩ := step_next hstep
  · exact hinv
  · exact exec_keeps_inv hinv hrun hexec
  · exact State.raise_inv hinv (State.status_running.1 hrun).2 k

/-- Settles O39: it holds no byte, no value and no fault. -/
theorem resetStateMeetsTheInvariant : Obligations.ResetStateMeetsTheInvariant :=
  State.inv_iff.2 ⟨Memory.reset_wf, rfl, Nat.zero_le _, rfl, .inl rfl⟩

/-- Settles O9: an instruction ends in its writes or in one fault, and both are next states. -/
theorem everyInstructionAnswersANextState : Obligations.EveryInstructionAnswersANextState := by
  intro i s
  cases heffect : effect i s with
  | ok w => exact ⟨_, exec_of_effect_ok heffect⟩
  | error k => exact ⟨_, exec_of_effect_error heffect⟩

/-- Settles O47: its writes are to `ip` and the stack, and a fault is to `err`. -/
theorem instructionsWriteOnlyIpStackAndErr : Obligations.InstructionsWriteOnlyIpStackAndErr := by
  intro i s t h
  rcases exec_cases h with ⟨ip, st, _, rfl⟩ | ⟨k, _, rfl⟩
  · exact .inl rfl
  · exact .inr ⟨k, rfl⟩

/-- Below `L` the fetch finds every byte it asks for (R37). -/
theorem State.fetchInstr_ne_noByte {s : State} (hip : s.ip.toNat < s.progLen) : s.fetchInstr ≠ .noByte := by
  obtain ⟨_, _, ⟨_, hf⟩ | ⟨_, _, hf⟩ | ⟨_, _, ⟨_, hf⟩ | ⟨_, _, _, _, _, _, _, _, _, hf⟩⟩⟩ :=
    State.fetchInstr_cases hip <;> simp [hf]

/-- Settles O8: a running machine's fetch finds its bytes, and every instruction answers a next state (O9). -/
theorem everyStepAnswersANextState : Obligations.EveryStepAnswersANextState := by
  intro s hl
  rcases step_cases (progLenOk_iff.2 hl) with ⟨_, hstep⟩ | ⟨hrun, ⟨i, _, hstep⟩ | ⟨k, _, hstep⟩ | ⟨hf, _⟩⟩
  · exact ⟨s, hstep⟩
  · exact hstep ▸ everyInstructionAnswersANextState i s
  · exact ⟨_, hstep⟩
  · exact absurd hf (State.fetchInstr_ne_noByte (State.status_running.1 hrun).2)

/-- Settles O7: such a machine is not running. -/
theorem haltedAndFaultedMachinesStandStill : Obligations.HaltedAndFaultedMachinesStandStill := by
  intro s hl hs
  refine step_of_not_running hl fun hrun => ?_
  obtain ⟨herr, hip⟩ := State.status_running.1 hrun
  exact hs.elim (· herr) hip.not_ge

/-- Settles O10: the length is the first thing that `step` and `construct` test. -/
theorem tooLongProgramIsRefused : Obligations.TooLongProgramIsRefused := by
  have hlong {n : Nat} (h : Config.maxProgLen < n) : ¬progLenOk n = true := by simpa [progLenOk_iff] using h
  exact ⟨fun s h => if_neg (hlong h), fun cap image h => if_neg (hlong h)⟩

/-- Settles O36: the fault is the fetch's or the instruction's, and taking it writes `err` alone. -/
theorem faultingStepChangesOnlyErr : Obligations.FaultingStepChangesOnlyErr := by
  intro s t k herr hstep ht
  have raised {k' : FaultKind} (h : (s.raise k').err = some k) : s.raise k' = { s with err := some k } := by
    rw [← h]
    rfl
  obtain ⟨_, ⟨_, rfl⟩ | ⟨_, ⟨i, _, hexec⟩ | ⟨k', _, rfl⟩⟩⟩ := step_next hstep
  · simp [herr] at ht
  · rcases exec_cases hexec with ⟨ip, st, _, rfl⟩ | ⟨k', _, rfl⟩
    · simp [herr] at ht
    · exact raised ht
  · exact raised ht

/-- A machine that a step leaves as it is stays so for any number of steps. -/
theorem core_run_of_step_self {s : State} (h : step s = .next s) (n : Nat) : core.run n s = .next s := by
  induction n with
  | zero => rfl
  | succ n ih => exact core_run_succ.2 ⟨s, h, ih⟩

/-- Settles O37: a faulted machine is not running, so it stands still (O7). -/
theorem faultedMachineStaysFaulted : Obligations.FaultedMachineStaysFaulted := by
  intro s k hl herr
  have hstatus : s.status = .faulted k := State.status_faulted.2 herr
  refine ⟨core_run_of_step_self (step_of_not_running hl (by simp [hstatus])), hstatus, by simp [State.result, herr], ?_⟩
  simp [State.endedWell, hstatus]

end Sys2Proof.Machine

/-!
PROOFS of the family other: fetching the instruction that stands at `ip` (spec/40_control.md R70, R72), and
program bytes placed from outside (spec/20_memory.md R31, spec/60_exceptions.md R130).
-/

namespace Sys2Proof.Machine

/-- A running machine runs the instruction that the fetch gives (R70). -/
theorem step_of_fetchInstr {s : State} {i : Instr} (hl : s.progLen ≤ Config.maxProgLen) (hrun : s.status = .running)
    (hf : s.fetchInstr = .instr i) : step s = exec i s := by
  rcases step_cases (progLenOk_iff.2 hl) with ⟨hnot, _⟩ | ⟨_, ⟨j, hj, hstep⟩ | ⟨k, hk, _⟩ | ⟨hno, _⟩⟩
  · exact absurd hrun hnot
  · obtain rfl : i = j := by simpa [hf] using hj
    exact hstep
  · simp [hf] at hk
  · simp [hf] at hno

/-- An opcode without an immediate is the whole instruction (R51). -/
theorem State.fetchInstr_of_op {s : State} {op : Byte} {i : Instr} (hop : s.progRead s.ip.toNat = some op)
    (hsel : selectOpcode op = some (.op i)) : s.fetchInstr = .instr i := by
  obtain ⟨op', hop', hcases⟩ := State.fetchInstr_cases (State.progRead_some hop)
  obtain rfl : op = op' := Option.some.inj (hop.symm.trans hop')
  rcases hcases with ⟨hnone, _⟩ | ⟨j, hj, hf⟩ | ⟨withImm, hopi, _⟩
  · simp [hsel] at hnone
  · obtain rfl : i = j := by simpa [hsel] using hj
    exact hf
  · simp [hsel] at hopi

/-- The fetch gives what the program bytes from `ip` on decode to, whatever follows them (R53, R70). -/
theorem State.fetchInstr_of_decode {s : State} {bs rest : List Byte} {i : Instr}
    (hbs : s.progReadN s.ip.toNat bs.length = some bs) (hdec : decode bs = .ok (i, rest)) :
    s.fetchInstr = .instr i := by
  obtain ⟨_, _, hread⟩ := State.progReadN_some hbs
  cases bs with
  | nil => simp [decode] at hdec
  | cons op bytes =>
    have hop : s.progRead s.ip.toNat = some op := hread 0 (by simp)
    obtain ⟨hsel, _⟩ | ⟨withImm, v, hsel, rfl, rfl⟩ := decode_eq_ok_iff.1 hdec
    · exact State.fetchInstr_of_op hop hsel
    · have hlt {j : Nat} (hj : j < 5) : j < (op :: (immBytes v ++ rest)).length := by
        simp only [List.length_cons, List.length_append, immBytes_length]
        omega
      have himm := State.fetchInstr_of_immediate hop hsel (hread 1 (hlt (by decide))) (hread 2 (hlt (by decide)))
        (hread 3 (hlt (by decide))) (hread 4 (hlt (by decide)))
      rwa [assembleImm_bytes] at himm

/-- Settles O6: the fetch gives the instruction that the bytes decode to, and the step runs it. -/
theorem stepRunsDecodedInstruction : Obligations.StepRunsDecodedInstruction :=
  fun _ _ _ _ hl hrun hbs hdec => step_of_fetchInstr hl hrun (State.fetchInstr_of_decode hbs hdec)

/-- Settles O11: with fewer than four bytes the fetch raises MalformedProgram; with four it gives the instruction with
the immediate that they spell. -/
theorem immediateFetchNeedsFourBytes : Obligations.ImmediateFetchNeedsFourBytes := by
  intro s op withImm hform hl herr hop
  have hip := State.progRead_some hop
  have hsel := selectOpcode_opi hform
  split
  case isTrue hshort =>
    exact (step_raises_iff hl herr hip).2
      (.inl ((State.fetchInstr_raises_iff hop).2 (.inr ⟨rfl, ⟨withImm, hsel⟩, by omega⟩)))
  case isFalse hfour =>
    have hread (j : Nat) (hj : j < 5) := State.progRead_lt (s := s) (a := s.ip.toNat + j) (by omega)
    have h1 := hread 1 (by decide)
    have h2 := hread 2 (by decide)
    have h3 := hread 3 (by decide)
    have h4 := hread 4 (by decide)
    exact ⟨_, _, _, _, h1, h2, h3, h4, step_of_fetchInstr hl (State.status_running.2 ⟨herr, hip⟩)
      (State.fetchInstr_of_immediate hop hsel h1 h2 h3 h4)⟩

@[simp] theorem State.placeBytes_progLen (s : State) (a : Nat) (bytes : List Byte) :
    (s.placeBytes a bytes).progLen = max s.progLen (a + bytes.length) := rfl

/-- Placed bytes read back at their addresses (R31, R142). -/
theorem State.progRead_placeBytes {s : State} (hwf : Memory.wf s.prog = true) (a : Nat) {bytes : List Byte} {k : Nat}
    (hk : k < bytes.length) : (s.placeBytes a bytes).progRead (a + k) = bytes[k]? := by
  have hlt : a + k < (s.placeBytes a bytes).progLen := by simp [hk]
  have hread : Memory.read (s.placeBytes a bytes).prog (a + k) = bytes[k] := by
    simp [State.placeBytes, Memory.read_writeBytes bytes a (a + k) hwf, hk]
  rw [State.progRead_lt hlt, hread, List.getElem?_eq_getElem hk]

/-- Bytes that are at consecutive addresses one by one are read there as a list. -/
theorem State.progReadN_of_progRead {s : State} {a : Nat} {bs : List Byte}
    (h : ∀ k, k < bs.length → s.progRead (a + k) = bs[k]?) : s.progReadN a bs.length = some bs := by
  induction bs generalizing a with
  | nil => rfl
  | cons b bs ih =>
    have hhead : s.progRead a = some b := h 0 (by simp)
    have htail : s.progReadN (a + 1) bs.length = some bs := by
      refine ih fun k hk => ?_
      rw [Nat.add_assoc, Nat.add_comm 1 k]
      exact h (k + 1) (by simpa using hk)
    simp [State.progReadN, hhead, htail]

/-- Settles O41: construction places the image in the machine after reset, whose memory is empty. -/
theorem constructedMachineHoldsTheImage : Obligations.ConstructedMachineHoldsTheImage := by
  intro cap image hlen
  have hprogLen : (({ State.reset with stackCap := cap } : State).placeBytes 0 image).progLen = image.length := by
    simp [State.reset]
  refine ⟨_, construct_eq_ok_iff.2 ⟨progLenOk_iff.2 hlen, rfl⟩, ?_, rfl, rfl, rfl, hprogLen, rfl, fun a => ?_⟩
  · refine State.inv_iff.2 ⟨Memory.writeBytes_wf image 0 Memory.reset_wf, ?_, hprogLen ▸ hlen, ?_, .inl rfl⟩
    · rw [hprogLen]
      exact Memory.writeBytes_below image 0 rfl (Nat.zero_add _).le
    · exact State.stackFits_iff.2 fun cap _ => Nat.zero_le cap
  · by_cases ha : a < image.length
    · simpa using State.progRead_placeBytes (s := { State.reset with stackCap := cap }) Memory.reset_wf 0 ha
    · rw [State.progRead_ge (hprogLen ▸ Nat.le_of_not_lt ha), List.getElem?_eq_none (Nat.le_of_not_lt ha)]

/-- Placed at `fetchPlace`, the bytes of an instruction end below the bound on a program's length (log entry 17). -/
theorem State.fetchPlace_le (s : State) : s.fetchPlace.toNat + 5 ≤ Config.maxProgLen := by
  unfold State.fetchPlace
  split
  case isTrue h => exact progLenOk_iff.1 h
  case isFalse => decide

/-- What `withFetchWord` gives: five bytes placed at `ip` in a program of an admitted length and canonical form, and no
fault (log entry 17). -/
theorem State.withFetchWord_spec {s : State} (hwf : Memory.wf s.prog = true) (nbits w : Nat) :
    ∃ base : State, Memory.wf base.prog = true ∧ base.progLen ≤ Config.maxProgLen ∧
      s.withFetchWord nbits w =
        { base.placeBytes s.fetchPlace.toNat (tableBytes nbits w) with ip := s.fetchPlace, err := none } := by
  unfold State.withFetchWord
  split
  case isTrue hl => exact ⟨s, hwf, progLenOk_iff.1 hl, rfl⟩
  case isFalse => exact ⟨{ s with prog := [], progLen := 0 }, rfl, Nat.zero_le _, rfl⟩

theorem decodeTableWord_eq_some_iff {nbits w : Nat} {i : Instr} :
    decodeTableWord nbits w = some i ↔ ∃ rest, decode (tableBytes nbits w) = .ok (i, rest) := by
  unfold decodeTableWord
  rcases decode (tableBytes nbits w) with e | ⟨j, rest⟩ <;> simp

/-- Settles O53: the placed bytes stand at `ip` in a running machine, so the step runs what they decode to (O6). -/
theorem placedInstructionRunsNext : Obligations.PlacedInstructionRunsNext := by
  intro s nbits w i hwf hdec
  obtain ⟨rest, hdec⟩ := decodeTableWord_eq_some_iff.1 hdec
  obtain ⟨base, hbase, hlen, ht⟩ := State.withFetchWord_spec hwf nbits w
  have hplace := s.fetchPlace_le
  have hfive : (tableBytes nbits w).length = 5 := rfl
  have hbs : (base.placeBytes s.fetchPlace.toNat (tableBytes nbits w)).progReadN s.fetchPlace.toNat
      (tableBytes nbits w).length = some (tableBytes nbits w) :=
    State.progReadN_of_progRead fun k hk => State.progRead_placeBytes hbase _ hk
  rw [ht]
  refine stepRunsDecodedInstruction _ _ i rest ?_ (State.status_running.2 ⟨rfl, ?_⟩) ?_ hdec
  · simp only [State.placeBytes_progLen, hfive]
    omega
  · simp only [State.placeBytes_progLen, hfive]
    omega
  · exact hbs

end Sys2Proof.Machine

/-!
PROOFS of the family other: what the control and the stack instructions do (spec/40_control.md R74 to R76,
spec/41_stack.md R80 to R84). One lemma per instruction gives its effect on a stack of the shape it needs.
-/

namespace Sys2Proof.Machine

theorem effect_jump {s : State} {below : List Word} {target : Word} (hs : s.stack = below ++ [target]) :
    effect .jump s = .ok (target, below) := by
  simp [effect, hs, pure, Except.pure]

theorem effect_jumpIfZero {s : State} {below : List Word} {cond target : Word}
    (hs : s.stack = below ++ [cond, target]) :
    effect .jumpIfZero s = .ok (if cond = 0#32 then target else s.afterOp, below) := by
  have hpop : pop s.stack = .ok (target, below ++ [cond]) := by simp [pop, hs]
  simp [effect, hpop, isZero, pure, Except.pure]

/-- Settles O13: the pattern of the popped target is the next `ip`, and there is nothing to pop on an empty stack. -/
theorem jumpGoesToThePoppedTarget : Obligations.JumpGoesToThePoppedTarget := by
  refine ⟨fun s below target hs => ?_, fun s hs => exec_of_effect_error (effect_eq_error_iff.2 ⟨rfl, hs⟩)⟩
  rw [exec_of_effect_ok (effect_jump hs), BitVec.ofNat_toNat, BitVec.setWidth_eq]
  rfl

/-- Settles O14: both values are popped before the condition is tested, and two values are needed. -/
theorem jumpIfZeroPopsTargetThenCondition : Obligations.JumpIfZeroPopsTargetThenCondition := by
  refine ⟨fun s below cond target hs => ?_, fun s hs => exec_of_effect_error (effect_eq_error_iff.2 ⟨rfl, hs⟩)⟩
  rw [exec_of_effect_ok (effect_jumpIfZero hs), BitVec.ofNat_toNat, BitVec.setWidth_eq]
  rfl

/-- With `ip` at or above `L` and no fault the machine has halted, and it stands still (R19, R70). -/
theorem State.moveTo_halts {s : State} (hl : s.progLen ≤ Config.maxProgLen) (herr : s.err = none) {ip : BitVec 32}
    (hip : s.progLen ≤ ip.toNat) (st : List Word) :
    (s.moveTo ip st).status = .halted ∧ step (s.moveTo ip st) = .next (s.moveTo ip st) := by
  have hhalted : (s.moveTo ip st).status = .halted := State.status_halted.2 ⟨herr, hip⟩
  exact ⟨hhalted, step_of_not_running hl (by simp [hhalted])⟩

/-- A target that is negative or at or above an admitted `L` is at or above `L` when read as unsigned (D1, D2). -/
theorem le_toNat_of_outside {n : Nat} (hn : n ≤ Config.maxProgLen) {target : Word}
    (h : target.toInt < 0 ∨ (n : Int) ≤ target.toInt) : n ≤ target.toNat := by
  rw [BitVec.toInt_eq_toNat_cond] at h
  unfold Config.maxProgLen at hn
  split at h <;> omega

/-- Settles O15: the popped target becomes `ip`, at or above `L`, and that is where the machine halts. -/
theorem targetsOutsideTheProgramHalt : Obligations.TargetsOutsideTheProgramHalt := by
  intro s below target hl herr hout
  have hip := le_toNat_of_outside hl hout
  exact ⟨fun hs => ⟨_, exec_of_effect_ok (effect_jump hs), State.moveTo_halts hl herr hip below⟩,
    fun hs => ⟨_, exec_of_effect_ok (effect_jumpIfZero hs), State.moveTo_halts hl herr hip below⟩⟩

/-- Settles O16: the push is the only test that PUSH_CONST makes. -/
theorem pushConstPushesItsImmediate : Obligations.PushConstPushesItsImmediate := by
  intro v s
  constructor
  · intro hroom
    have heffect : effect (.pushConst v) s = .ok (s.afterOpi, s.stack ++ [v]) := by
      simp [effect, push_ok hroom, pure, Except.pure]
    exact exec_of_effect_ok heffect
  · intro hfull
    exact exec_of_effect_error (effect_eq_error_iff.2 ⟨rfl, hfull⟩)

/-- A depth in range splits the stack at the element that has that many elements above it (R84). -/
theorem exists_split_at_depth {st : List Word} {d : Word} (h0 : 0 ≤ d.toInt) (h : d.toInt < st.length) :
    ∃ below v above, st = below ++ v :: above ∧ d.toInt = above.length := by
  have hlt : st.length - 1 - d.toInt.toNat < st.length := by omega
  refine ⟨st.take (st.length - 1 - d.toInt.toNat), st[st.length - 1 - d.toInt.toNat],
    st.drop (st.length - 1 - d.toInt.toNat + 1), ?_, ?_⟩
  · rw [← List.drop_eq_getElem_cons hlt, List.take_append_drop]
  · rw [List.length_drop]
    omega

/-- Where the stack is split at the element at depth `d`, the index of that element is the length below it, and it is in
range (R84). -/
theorem depthIndex_of_split {below above : List Word} {v d : Word} (hd : d.toInt = above.length) :
    (0 ≤ d.toInt ∧ d.toInt < (below ++ v :: above).length) ∧
      (depthIndex (below ++ v :: above).length d).toNat = below.length := by
  simp only [depthIndex, List.length_append, List.length_cons]
  omega

theorem readDepth_of_split {below above : List Word} {v d : Word} (hd : d.toInt = above.length) :
    readDepth (below ++ v :: above) d = .ok v := by
  obtain ⟨⟨h0, h⟩, hidx⟩ := depthIndex_of_split (below := below) (v := v) hd
  obtain ⟨v', hv', hread⟩ := readDepth_in h0 h
  rw [hidx] at hv'
  obtain rfl : v = v' := by simpa using hv'
  exact hread

theorem writeDepth_of_split {below above : List Word} {old d : Word} (hd : d.toInt = above.length) (v : Word) :
    writeDepth (below ++ old :: above) d v = .ok (below ++ v :: above) := by
  obtain ⟨⟨h0, h⟩, hidx⟩ := depthIndex_of_split (below := below) (v := old) hd
  rcases writeDepth_cases (below ++ old :: above) d v with ⟨hout, _⟩ | ⟨_, _, hwrite⟩
  · omega
  · rw [hwrite, hidx]
    simp

/-- Settles O17: the depth is in range, so only the push can fail. -/
theorem loadAtDepthCopiesTheElement : Obligations.LoadAtDepthCopiesTheElement := by
  intro d s below above v hs hd
  have hread : readDepth s.stack d = .ok v := by rw [hs, readDepth_of_split hd]
  constructor
  · intro hroom
    have heffect : effect (.loadAtDepth d) s = .ok (s.afterOpi, s.stack ++ [v]) := by
      simp [effect, hread, push_ok hroom, pure, Except.pure]
    rw [← hs]
    exact exec_of_effect_ok heffect
  · intro hfull
    have hrange := readDepth_completes_iff.1 ⟨v, hread⟩
    exact exec_of_effect_error (effect_eq_error_iff.2 (.inr ⟨hrange, rfl, hfull⟩))

/-- Settles O18: the write is to the element that has `d` elements above it once the value is popped. -/
theorem storeAtDepthOverwritesTheElement : Obligations.StoreAtDepthOverwritesTheElement := by
  intro d s below above old value hs hd
  have heffect : effect (.storeAtDepth d) s = .ok (s.afterOpi, below ++ value :: above) := by
    simp only [effect, hs, pop_concat, writeDepth_of_split hd, except_bind_ok, pure, Except.pure]
  exact exec_of_effect_ok heffect

/-- Settles O19: the count is not negative and there are that many values. -/
theorem dropNDiscardsTheTopElements : Obligations.DropNDiscardsTheTopElements := by
  intro n s below dropped hs hn
  have hdrop : dropTop n.toInt.toNat s.stack = .ok below := by simp [dropTop, hs, hn]
  have heffect : effect (.dropN n) s = .ok (s.afterOpi, below) := by
    rw [effect_dropN, if_neg (by omega), hdrop, except_bind_ok]
  exact exec_of_effect_ok heffect

/-- Settles O20: the store writes the popped value at its depth (O18), and the load copies what is there (O17). -/
theorem loadAfterStoreReadsTheStoredValue : Obligations.LoadAfterStoreReadsTheStoredValue := by
  intro d s t _ hstore ht hroom
  obtain ⟨ip, st, heffect, _⟩ := exec_completes hstore ht
  obtain ⟨rest, value, hs, h0, h, _⟩ := effect_ok heffect
  obtain ⟨below, old, above, rfl, hd⟩ := exists_split_at_depth h0 h
  obtain rfl := Host.Outcome.next.inj
    ((storeAtDepthOverwritesTheElement d s below above old value hs hd).symm.trans hstore)
  exact ⟨_, (loadAtDepthCopiesTheElement d _ below above value rfl hd).1 hroom, ht,
    by rw [hs, List.getLast?_concat, List.getLast?_concat]⟩

end Sys2Proof.Machine

/-!
PROOFS of the family other: arithmetic and comparison, by the two-operand template (spec/42_arith.md R90 to R97,
spec/43_compare.md R100 to R105). The model computes in the integers and narrows once; `operation` says what that is on
words, and `effect_of_operation` ties it to the model.
-/

namespace Sys2Proof.Machine

theorem wrap32_toInt (z : Int) : (wrap32 z).toInt = z.bmod (2 ^ 32) := BitVec.toInt_ofInt z

theorem addWord_eq (a b : Word) : addWord a b = a + b :=
  BitVec.eq_of_toInt_eq ((wrap32_toInt _).trans (BitVec.toInt_add a b).symm)

theorem subWord_eq (a b : Word) : subWord a b = a - b :=
  BitVec.eq_of_toInt_eq ((wrap32_toInt _).trans BitVec.toInt_sub.symm)

theorem mulWord_eq (a b : Word) : mulWord a b = a * b :=
  BitVec.eq_of_toInt_eq ((wrap32_toInt _).trans (BitVec.toInt_mul a b).symm)

/-- The quotient rounded toward zero is the signed division of the words, INT32_MIN by -1 included (R94, R97). -/
theorem divWord_eq : divWord = fun a b => if b = 0#32 then .error .divideByZero else .ok (a.sdiv b) := by
  funext a b
  have hq : wrap32 (a.toInt.tdiv b.toInt) = a.sdiv b :=
    BitVec.eq_of_toInt_eq ((wrap32_toInt _).trans (BitVec.toInt_sdiv a b).symm)
  rw [divWord, hq]

/-- The remainder of that division is the signed remainder of the words (R95). -/
theorem modWord_eq : modWord = fun a b => if b = 0#32 then .error .divideByZero else .ok (a.srem b) := by
  funext a b
  have hr : a.toInt - b.toInt * a.toInt.tdiv b.toInt = (a.srem b).toInt := by rw [BitVec.toInt_srem, Int.tmod_def]
  rw [modWord, hr, wrap32, BitVec.ofInt_toInt]

theorem truthWord_decide (p : Prop) [Decidable p] : truthWord (decide p) = if p then 1#32 else 0#32 := by
  simp [truthWord]

/-- What each instruction of the two-operand template computes from its words, the first popped on the left (R91 to
R104); no other instruction has an operation. -/
def operation : Instr → Option (Word → Word → Except FaultKind Word)
  | .add => some fun a b => .ok (a + b)
  | .sub => some fun a b => .ok (a - b)
  | .mul => some fun a b => .ok (a * b)
  | .div => some fun a b => if b = 0#32 then .error .divideByZero else .ok (a.sdiv b)
  | .mod => some fun a b => if b = 0#32 then .error .divideByZero else .ok (a.srem b)
  | .eq => some fun a b => .ok (if a = b then 1#32 else 0#32)
  | .gt => some fun a b => .ok (if b.toInt < a.toInt then 1#32 else 0#32)
  | .lt => some fun a b => .ok (if a.toInt < b.toInt then 1#32 else 0#32)
  | .ge => some fun a b => .ok (if b.toInt ≤ a.toInt then 1#32 else 0#32)
  | .le => some fun a b => .ok (if a.toInt ≤ b.toInt then 1#32 else 0#32)
  | .halt | .jump | .jumpIfZero | .pushConst _ | .loadAtDepth _ | .storeAtDepth _ | .dropN _ => none

/-- An instruction with an operation has the template's effect for it (R90). -/
theorem effect_of_operation {i : Instr} {f : Word → Word → Except FaultKind Word} (hi : operation i = some f)
    (s : State) : effect i s = twoOperand s f := by
  cases i <;> simp only [operation, Option.some.injEq, reduceCtorEq] at hi <;> subst hi
  case add => simp only [effect, addWord_eq]
  case sub => simp only [effect, subWord_eq]
  case mul => simp only [effect, mulWord_eq]
  case div => rw [effect, divWord_eq]
  case mod => rw [effect, modWord_eq]
  case eq => exact effect_eq s
  case gt | lt | ge | le => simp only [effect, truthWord_decide]

/-- On a stack that fits its capacity, an operation that completes puts its result in the place of its operands
(R90). -/
theorem exec_operation {i : Instr} {f : Word → Word → Except FaultKind Word} (hi : operation i = some f) {s : State}
    {below : List Word} {b a v : Word} (hfits : s.stackFits = true) (hs : s.stack = below ++ [b, a])
    (hf : f a b = .ok v) : exec i s = .next { s with ip := s.ip + 1#32, stack := below ++ [v] } :=
  exec_of_effect_ok ((effect_of_operation hi s).trans (twoOperand_completes hfits hs hf))

theorem exec_div {s : State} {below : List Word} {b a : Word} (hfits : s.stackFits = true)
    (hs : s.stack = below ++ [b, a]) (hb : b ≠ 0#32) :
    exec .div s = .next { s with ip := s.ip + 1#32, stack := below ++ [a.sdiv b] } :=
  exec_operation rfl hfits hs (if_neg hb)

theorem exec_mod {s : State} {below : List Word} {b a : Word} (hfits : s.stackFits = true)
    (hs : s.stack = below ++ [b, a]) (hb : b ≠ 0#32) :
    exec .mod s = .next { s with ip := s.ip + 1#32, stack := below ++ [a.srem b] } :=
  exec_operation rfl hfits hs (if_neg hb)

/-- A number in the signed 32-bit range is its own residue. -/
theorem bmod_eq_of_in_range {z : Int} (h0 : -2 ^ 31 ≤ z) (h : z < 2 ^ 31) : z.bmod (2 ^ 32) = z :=
  Int.bmod_eq_of_le_mul_two (by omega) (by omega)

/-- Settles O21: the signed value of a sum, a difference or a product of words is the exact one, wrapped. -/
theorem addSubMulPushTheWrappedResult : Obligations.AddSubMulPushTheWrappedResult := by
  intro s below b a hfits hs
  exact ⟨⟨a + b, BitVec.toInt_add a b, exec_operation rfl hfits hs rfl⟩,
    ⟨a - b, BitVec.toInt_sub, exec_operation rfl hfits hs rfl⟩,
    ⟨a * b, BitVec.toInt_mul a b, exec_operation rfl hfits hs rfl⟩⟩

/-- Settles O22: in range, the wrapped result (O21) is the exact one. -/
theorem addSubMulAreExactInRange : Obligations.AddSubMulAreExactInRange := by
  intro s below b a hfits hs
  obtain ⟨⟨x, hx, hadd⟩, ⟨y, hy, hsub⟩, ⟨z, hz, hmul⟩⟩ := addSubMulPushTheWrappedResult s below b a hfits hs
  exact ⟨fun h0 h => ⟨x, hx.trans (bmod_eq_of_in_range h0 h), hadd⟩,
    fun h0 h => ⟨y, hy.trans (bmod_eq_of_in_range h0 h), hsub⟩,
    fun h0 h => ⟨z, hz.trans (bmod_eq_of_in_range h0 h), hmul⟩⟩

/-- Settles O23: the one quotient that signed division of words wraps is excluded. -/
theorem divTruncatesTowardZero : Obligations.DivTruncatesTowardZero := by
  intro s below b a hfits hs hb hcorner
  have hwords : a ≠ BitVec.intMin 32 ∨ b ≠ -1#32 := by
    by_contra! hboth
    obtain ⟨rfl, rfl⟩ := hboth
    exact hcorner (by decide)
  exact ⟨a.sdiv b, BitVec.toInt_sdiv_of_ne_or_ne a b hwords, exec_div hfits hs hb⟩

/-- Settles O24: on words, the signed quotient of this pair is INT32_MIN and the remainder is 0. -/
theorem minByMinusOneWraps : Obligations.MinByMinusOneWraps := by
  intro s below hfits hs
  have hq : Word.int32Min.sdiv (-1#32) = Word.int32Min := by decide
  have hr : Word.int32Min.srem (-1#32) = 0#32 := by decide
  exact ⟨hq ▸ exec_div hfits hs (by decide), hr ▸ exec_mod hfits hs (by decide)⟩

/-- Settles O25: the word pushed has the value of the integers' truncating remainder, whose laws are the library's. -/
theorem modPushesTheRemainder : Obligations.ModPushesTheRemainder := by
  intro s below b a hfits hs hb
  have hpos : 0 < b.toInt.natAbs := Int.natAbs_pos.2 fun h0 => hb (BitVec.toInt_inj.1 h0)
  refine ⟨a.srem b, exec_mod hfits hs hb, ?_⟩
  rw [BitVec.toInt_srem]
  refine ⟨(Int.mul_tdiv_add_tmod a.toInt b.toInt).symm, ?_, ?_⟩
  · rw [Int.natAbs_tmod]
    exact Nat.mod_lt _ hpos
  · by_cases hdvd : b.toInt ∣ a.toInt
    · exact .inl (Int.tmod_eq_zero_of_dvd hdvd)
    · exact .inr (by rw [Int.sign_tmod, if_neg hdvd])

/-- Settles O28: each outcome is that of the relation between the signed values. -/
theorem orderComparisonsAreSigned : Obligations.OrderComparisonsAreSigned := by
  intro s below b a hfits hs
  exact ⟨exec_operation rfl hfits hs rfl, exec_operation rfl hfits hs rfl, exec_operation rfl hfits hs rfl,
    exec_operation rfl hfits hs rfl⟩

/-- Settles O29: the outcomes are those of O27 and O28, and two signed values stand in exactly one order. -/
theorem comparisonOutcomesExcludeEachOther : Obligations.ComparisonOutcomesExcludeEachOther := by
  intro s below b a hfits hs
  obtain ⟨hgt, hlt, hge, hle⟩ := orderComparisonsAreSigned s below b a hfits hs
  have heq := eqPushesOneForEqualValues.2.1 s below b a hfits hs
  refine ⟨_, _, _, _, _, _, _, _, _, _, heq, rfl, hgt, rfl, hlt, rfl, hge, rfl, hle, rfl, ?_⟩
  rcases lt_trichotomy a.toInt b.toInt with h | h | h
  · have hne : a ≠ b := fun hab => h.ne (congrArg BitVec.toInt hab)
    simp [h, h.le, hne, h.not_gt, h.not_ge]
  · obtain rfl : a = b := BitVec.toInt_inj.1 h
    simp
  · have hne : a ≠ b := fun hab => h.ne' (congrArg BitVec.toInt hab)
    simp [h, h.le, hne, h.not_gt, h.not_ge]

/-- Two pushes on an unbounded stack, the later one on top (R80). -/
theorem exec_pushConst_twice {s : State} (hcap : s.stackCap = none) (x y : Word) :
    ∃ t u, exec (.pushConst x) s = .next t ∧ exec (.pushConst y) t = .next u ∧ u.stackFits = true ∧
      u.stack = s.stack ++ [x, y] := by
  have hpush {t : State} (v : Word) (ht : t.stackCap = none) := (pushConstPushesItsImmediate v t).1 (by simp [ht])
  exact ⟨_, _, hpush x hcap, hpush y hcap, State.stackFits_iff.2 (by simp [hcap]), by simp⟩

/-- Settles O26: the second push is on top, and what is on top is the left operand of SUB, GT (O28) and DIV (O23). -/
theorem lastPushedOperandIsTheLeftOne : Obligations.LastPushedOperandIsTheLeftOne := by
  intro s x y hcap
  obtain ⟨t, u, ht, hu, hfits, hstack⟩ := exec_pushConst_twice hcap x y
  refine ⟨t, u, ht, hu, ⟨_, exec_operation rfl hfits hstack rfl, rfl⟩,
    ⟨_, exec_operation rfl hfits hstack rfl, rfl⟩, fun hx0 hx1 => ?_⟩
  have hcorner : ¬(y.toInt = -2 ^ 31 ∧ x.toInt = -1) :=
    fun ⟨_, hx⟩ => hx1 (BitVec.eq_of_toInt_eq (hx.trans (by decide)))
  obtain ⟨q, hq, hdiv⟩ := divTruncatesTowardZero u s.stack x y hfits hstack hx0 hcorner
  exact ⟨_, q, hdiv, rfl, hq⟩

end Sys2Proof.Machine

/-!
PROOFS of the family other: which faults each instruction raises from a stack that fits its capacity
(spec/60_exceptions.md R117, R119).
-/

namespace Sys2Proof.Machine

/-- On a stack that fits its capacity, two pops leave room for a push (R90, R117). -/
theorem State.room_of_two_operands {s : State} (hfits : s.stackFits = true) {below : List Word} {b a : Word}
    (hs : s.stack = below ++ [b, a]) : s.stackCap ≠ some below.length := by
  intro hcap
  have hle := State.stackFits_iff.1 hfits _ hcap
  simp [hs] at hle

/-- Settles O38: the table of faults, without the pushes that cannot fail on a stack that fits its capacity. -/
theorem faultsRaisedByEachInstruction : Obligations.FaultsRaisedByEachInstruction := by
  intro i s t k herr hfits hexec ht
  have h := effect_eq_error_iff.1 ((exec_raises_iff herr).1 ⟨t, hexec, ht⟩)
  cases i with
  | halt => exact h
  | jump | jumpIfZero | pushConst v => exact h.1
  | loadAtDepth d => exact h.imp (·.1) (·.2.1)
  | storeAtDepth d | dropN n => exact h.imp (·.1) (·.1)
  | add | sub | mul | eq | gt | lt | ge | le =>
    obtain ⟨hk, _⟩ | ⟨below, b, a, hs, _, hfull⟩ := h
    · exact hk
    · exact absurd hfull (State.room_of_two_operands hfits hs)
  | div | mod =>
    obtain ⟨hk, _⟩ | ⟨below, b, a, hs, ⟨hk, _⟩ | ⟨_, _, hfull⟩⟩ := h
    · exact .inl hk
    · exact .inr hk
    · exact absurd hfull (State.room_of_two_operands hfits hs)

/-- Settles O35: PUSH_CONST and LOAD_AT_DEPTH raise it as the table of faults says, and no other instruction does
(O38). -/
theorem stackOverflowExactly : Obligations.StackOverflowExactly := by
  intro i s herr hfits
  cases i with
  | pushConst v => simp [exec_raises_iff herr, effect_eq_error_iff]
  | loadAtDepth d =>
    rw [exec_raises_iff herr, effect_eq_error_iff]
    simp [and_comm]
  | _ =>
    refine iff_of_false (fun ⟨t, hexec, ht⟩ => ?_) (by simp)
    simpa using faultsRaisedByEachInstruction _ s t _ herr hfits hexec ht

end Sys2Proof.Machine

/-!
PROOFS of the family other: where a step leaves `ip`, and what a completed instruction leaves of the stack
(spec/10_state.md R13, R14, R16, spec/40_control.md R76).
-/

namespace Sys2Proof.Machine

/-- An instruction is encoded in as many bytes as its length says (R50). -/
theorem encode_length (i : Instr) : (encode i).length = i.length := by
  obtain ⟨b, rest, henc, _, hlen⟩ := encodedLength i
  rw [henc, List.length_cons, Nat.add_comm, hlen]

/-- A fetched instruction lies within the program (R72). -/
theorem State.fetchInstr_fits {s : State} {i : Instr} (hip : s.ip.toNat < s.progLen) (hf : s.fetchInstr = .instr i) :
    s.ip.toNat + i.length ≤ s.progLen := by
  obtain ⟨op, _, ⟨_, hno⟩ | ⟨j, hsel, hj⟩ | ⟨withImm, hsel, ⟨_, hno⟩ | ⟨hle, b1, b2, b3, b4, _, _, _, _, hj⟩⟩⟩ :=
    State.fetchInstr_cases hip
  · simp [hf] at hno
  · obtain rfl : i = j := by simpa [hf] using hj
    rw [← encode_length, encode_of_selectOpcode_op hsel]
    exact hip
  · simp [hf] at hno
  · obtain rfl : i = withImm (assembleImm b1 b2 b3 b4) := by simpa [hf] using hj
    rw [← encode_length, encode_of_selectOpcode_opi hsel]
    exact hle

/-- A completed instruction that is neither HALT nor a jump leaves `ip` just after itself (R13, R76). -/
theorem effect_ok_sequential {i : Instr} {s : State} {ip : BitVec 32} {st : List Word} (h : effect i s = .ok (ip, st))
    (hhalt : i ≠ .halt) (hjump : i ≠ .jump) (hjz : i ≠ .jumpIfZero) : ip = s.ip + BitVec.ofNat 32 i.length := by
  have h := effect_ok h
  cases i with
  | halt => exact absurd rfl hhalt
  | jump => exact absurd rfl hjump
  | jumpIfZero => exact absurd rfl hjz
  | pushConst v =>
    obtain ⟨_, _, hip⟩ := h
    exact hip
  | loadAtDepth d =>
    obtain ⟨_, _, _, _, hip⟩ := h
    exact hip
  | storeAtDepth d =>
    obtain ⟨_, _, _, _, _, _, hip⟩ := h
    exact hip
  | dropN n =>
    obtain ⟨_, _, _, hip⟩ := h
    exact hip
  | add | sub | mul | div | mod | eq | gt | lt | ge | le =>
    obtain ⟨_, _, _, _, _, _, _, hip⟩ := h
    exact hip

/-- Below an admitted `L` the address after an instruction does not wrap (R2, D2). -/
theorem toNat_add_of_le_maxProgLen {ip : BitVec 32} {n : Nat} (h : ip.toNat + n ≤ Config.maxProgLen) :
    (ip + BitVec.ofNat 32 n).toNat = ip.toNat + n := by
  unfold Config.maxProgLen at h
  rw [BitVec.toNat_add, BitVec.toNat_ofNat]
  omega

/-- Settles O44: `ip` moves by the instruction's length, and the instruction lies within the program. -/
theorem sequentialInstructionsAdvanceIp : Obligations.SequentialInstructionsAdvanceIp := by
  intro s t i hl hrun hf hhalt hjump hjz hstep ht
  rw [step_of_fetchInstr hl hrun hf] at hstep
  obtain ⟨ip, st, heffect, rfl⟩ := exec_completes hstep ht
  have hle := State.fetchInstr_fits (State.status_running.1 hrun).2 hf
  have hip : ip.toNat = s.ip.toNat + i.length := by
    rw [effect_ok_sequential heffect hhalt hjump hjz, toNat_add_of_le_maxProgLen (hle.trans hl)]
  exact ⟨hip, by rw [State.moveTo_ip, hip]; exact hle⟩

/-- Where a step leaves `ip`: where it was, further on up to `L`, or at the target that a jump has popped (R14). -/
theorem step_ip_cases {s t : State} (h : step s = .next t) :
    t.ip = s.ip ∨ (s.ip.toNat < t.ip.toNat ∧ t.ip.toNat ≤ s.progLen) ∨
      ((s.fetchInstr = .instr .jump ∨ s.fetchInstr = .instr .jumpIfZero) ∧ s.stack.getLast? = some t.ip) := by
  obtain ⟨hl, ⟨_, rfl⟩ | ⟨hrun, ⟨i, hf, hexec⟩ | ⟨k, _, rfl⟩⟩⟩ := step_next h
  · exact .inl rfl
  · obtain ⟨herr, hlt⟩ := State.status_running.1 hrun
    have hl := progLenOk_iff.1 hl
    rcases exec_cases hexec with ⟨ip, st, heffect, rfl⟩ | ⟨k, _, rfl⟩
    · have hspec := effect_ok heffect
      have hafter := State.fetchInstr_fits hlt hf
      cases i with
      | halt =>
        obtain ⟨rfl, _⟩ := hspec
        rw [State.moveTo_ip, toNat_ofNat_of_le_maxProgLen hl]
        exact .inr (.inl ⟨hlt, le_rfl⟩)
      | jump => exact .inr (.inr ⟨.inl hf, by simp [hspec]⟩)
      | jumpIfZero =>
        obtain ⟨cond, target, hs, hip⟩ := hspec
        by_cases hcond : cond = 0#32
        · exact .inr (.inr ⟨.inr hf, by simp [hs, hip, hcond]⟩)
        · have hnext : ip.toNat = s.ip.toNat + 1 := by
            rw [hip, if_neg hcond]
            exact toNat_add_of_le_maxProgLen (hafter.trans hl)
          rw [State.moveTo_ip, hnext]
          exact .inr (.inl ⟨Nat.lt_succ_self _, hafter⟩)
      | _ =>
        obtain ⟨hnext, hle⟩ := sequentialInstructionsAdvanceIp s _ _ hl hrun hf (by simp) (by simp) (by simp) h herr
        exact .inr (.inl ⟨by rw [hnext]; exact Nat.lt_add_of_pos_right (by simp [Instr.length]), hle⟩)
    · exact .inl rfl
  · exact .inl rfl

/-- Settles O45: only a jump leaves `ip` above `L` or below where it was, and then `ip` is the popped target. -/
theorem ipLeavesTheProgramOnlyByJumps : Obligations.IpLeavesTheProgramOnlyByJumps := by
  refine ⟨⟨le_rfl, fun cap image s hs => ?_⟩, fun s t hle hstep => ?_, fun s t hstep hlt => ?_,
    fun s below target hl herr hs htarget => ?_⟩
  · simp [(stateAfterReset.2.2.2 cap image s hs).1]
  · rw [(step_keeps_inputs hstep).progLen]
    rcases step_ip_cases hstep with hip | ⟨_, hle'⟩ | ⟨hjump, htop⟩
    · exact .inl (hip ▸ hle)
    · exact .inl hle'
    · exact (le_or_gt t.ip.toNat s.progLen).imp_right fun hgt => ⟨hjump, t.ip, htop, hgt, rfl⟩
  · rcases step_ip_cases hstep with hip | ⟨hgt, _⟩ | ⟨hjump, _⟩
    · exact absurd hlt (by simp [hip])
    · exact absurd hlt hgt.not_gt
    · exact hjump
  · exact ⟨_, exec_of_effect_ok (effect_jump hs), htarget, State.moveTo_halts hl herr htarget.ge below⟩

/-- Settles O48: what each completed instruction pops and pushes, read off its stack before and after. -/
theorem elementsBelowTheOperandsStay : Obligations.ElementsBelowTheOperandsStay := by
  intro i s t _ hexec ht
  obtain ⟨ip, st, heffect, rfl⟩ := exec_completes hexec ht
  have hspec := effect_ok heffect
  rw [State.moveTo_stack]
  cases i with
  | halt =>
    obtain ⟨_, rfl⟩ := hspec
    simp
  | jump => simp +contextual [hspec, List.getElem?_append_left]
  | jumpIfZero =>
    obtain ⟨cond, target, hs, _⟩ := hspec
    simp +contextual [hs, List.getElem?_append_left]
  | pushConst v =>
    obtain ⟨_, rfl, _⟩ := hspec
    simp +contextual [List.getElem?_append_left]
  | loadAtDepth d =>
    obtain ⟨v, _, _, rfl, _⟩ := hspec
    simp +contextual [List.getElem?_append_left]
  | storeAtDepth d =>
    obtain ⟨below, v, hs, h0, h, rfl, _⟩ := hspec
    have hidx (k : Nat) : (depthIndex below.length d).toNat = k ↔ (k : Int) = depthIndex below.length d := by
      unfold depthIndex
      omega
    simp +contextual [hs, List.getElem_set, hidx, apply_ite some, List.getElem?_append_left]
  | dropN n =>
    obtain ⟨_, _, rfl, _⟩ := hspec
    simp +contextual
  | add | sub | mul | div | mod | eq | gt | lt | ge | le =>
    obtain ⟨below, b, a, v, hs, _, rfl, _⟩ := hspec
    simp +contextual [hs, List.getElem?_append_left]

end Sys2Proof.Machine

/-!
PROOFS of the family other: the ports and the fault codes (spec/10_state.md R18 to R20, spec/60_exceptions.md R110), and
reset (spec/70_reset_and_hazards.md R140).
-/

namespace Sys2Proof.Machine

/-- Settles O49: the three values of the status, each as its own law. -/
theorem statusIsDecidedByErrAndIp : Obligations.StatusIsDecidedByErrAndIp :=
  fun _ => ⟨fun _ => State.status_faulted, State.status_halted, State.status_running⟩

/-- Settles O50: the latch comes before the stack. -/
theorem resultPortReadsTheTop : Obligations.ResultPortReadsTheTop := by
  refine fun s => ⟨fun k herr => ⟨?_, ?_⟩, fun herr hs => ?_, fun below v herr hs => ?_, State.final_iff⟩
  · simp [State.result, herr]
  · simp [State.final, State.status_faulted.2 herr]
  · simp [State.result, herr, hs]
  · simp [State.result, herr, hs]

theorem faultCode_injective : Function.Injective faultCode := by
  intro j k h
  cases j <;> cases k <;> simp [faultCode] at h ⊢

/-- No kind has the code of `None` or that of `EmptyResult` (D8). -/
theorem faultCode_ne (k : FaultKind) : faultCode k ≠ 0#3 ∧ faultCode k ≠ emptyResultCode := by
  cases k <;> decide

/-- Settles O51: a latch with a fault has that kind's code, and the codes are different. -/
theorem faultCodesAreThoseOfTheList : Obligations.FaultCodesAreThoseOfTheList := by
  refine ⟨rfl, rfl, rfl, rfl, rfl, rfl, fun s => ?_, fun s t h => ?_⟩
  · cases herr : s.err with
    | none => simp [State.errKind, herr, emptyResultCode]
    | some k => simpa [State.errKind, herr] using (faultCode_ne k).symm
  · unfold State.errKind at h
    cases hs : s.err <;> cases ht : t.err <;> simp only [hs, ht] at h
    · rfl
    · exact absurd h.symm (faultCode_ne _).1
    · exact absurd h (faultCode_ne _).1
    · rw [faultCode_injective h]

/-- Settles O42: reset writes the three fields, and the rest of the invariant is about the others. -/
theorem resetGivesTheResetValues : Obligations.ResetGivesTheResetValues := by
  refine fun s t => ⟨rfl, rfl, rfl, fun a => rfl, fun hinv => ?_, fun hprog hlen hcap => ?_⟩
  · obtain ⟨hwf, hbelow, hl, _, _⟩ := State.inv_iff.1 hinv
    exact State.inv_iff.2 ⟨hwf, hbelow, hl, State.stackFits_iff.2 fun cap _ => Nat.zero_le cap, .inl rfl⟩
  · simp [State.applyReset, hprog, hlen, hcap]

end Sys2Proof.Machine

/-!
PROOFS of the family other: runs under a bound (spec/40_control.md R71, spec/60_exceptions.md R131).
-/

namespace Sys2Proof.Machine

/-- A bounded run of a machine that is not running ends at once (R71). -/
theorem run_of_not_running {s : State} (hs : s.status ≠ .running) (n : Nat) : run n s = .ended s := by
  cases n <;> simp [run, hs]

/-- A bounded run that ends is over at once, or is a step of a running machine and then a shorter run (R71). -/
theorem run_ended_cases {n : Nat} {s t : State} (h : run n s = .ended t) :
    (s.status ≠ .running ∧ t = s) ∨
      ∃ m u, n = m + 1 ∧ s.status = .running ∧ step s = .next u ∧ run m u = .ended t := by
  by_cases hs : s.status = .running
  · cases n with
    | zero => simp [run, hs] at h
    | succ m => cases hstep : step s <;> simp_all [run]
  · rw [run_of_not_running hs, RunEnd.ended.injEq] at h
    exact .inl ⟨hs, h.symm⟩

/-- A bounded run of a running machine goes on from the next state (R71). -/
theorem run_succ_of_step {s u : State} (hs : s.status = .running) (hstep : step s = .next u) (n : Nat) :
    run (n + 1) s = run n u := by
  simp [run, hs, hstep]

/-- Settles O52: by induction on the bound, a run that ends being over at once or a step and then a shorter run. -/
theorem runEndsAtTheFirstStateNotRunning : Obligations.RunEndsAtTheFirstStateNotRunning := by
  intro n s t h
  induction n using Nat.strong_induction_on generalizing s with
  | _ n ih =>
    obtain ⟨hs, rfl⟩ | ⟨n, u, rfl, hs, hstep, hrun⟩ := run_ended_cases h
    · exact ⟨⟨0, Nat.zero_le n, rfl, hs, fun j _ hj => absurd hj j.not_lt_zero⟩, fun m _ => run_of_not_running hs m⟩
    · obtain ⟨⟨k, hk, hreach, hend, hbefore⟩, hlarger⟩ := ih n n.lt_succ_self u hrun
      refine ⟨⟨k + 1, Nat.succ_le_succ hk, core_run_succ.2 ⟨u, hstep, hreach⟩, hend, fun j v hj hv => ?_⟩,
        fun m hm => ?_⟩
      · cases j with
        | zero =>
          obtain rfl : s = v := Host.Outcome.next.inj hv
          exact hs
        | succ j =>
          obtain ⟨u', hu', hv⟩ := core_run_succ.1 hv
          obtain rfl : u = u' := Host.Outcome.next.inj (hstep.symm.trans hu')
          exact hbefore j v (Nat.lt_of_succ_lt_succ hj) hv
      · obtain ⟨m, rfl⟩ : ∃ m', m = m' + 1 := ⟨m - 1, by omega⟩
        rw [run_succ_of_step hs hstep]
        exact hlarger m (Nat.le_of_succ_le_succ hm)

end Sys2Proof.Machine
